-- ==== Sys2Proof/Word.lean ====
section
/-! DEFINITION. The widths of the block's data: bytes of the buffers, 16-bit dimensions, 32-bit words. -/

namespace Sys2Proof

/-- A buffer element: 8 bits (10_state.md R40). -/
abbrev Byte := BitVec 8

/-- A dimension register's used part: 16 bits (10_state.md R25, R26). -/
abbrev Half := BitVec 16

/-- A register, a command word, a host address, or a float's bit pattern: 32 bits
(10_state.md R22, 20_memory.md R60, 30_encoding.md R80). -/
abbrev Word := BitVec 32

end Sys2Proof
end

