-- ==== Sys2Proof/Syntax.lean ====
section
/-! DEFINITION. The eleven commands (30_encoding.md R88), the fields of a command word (R81), and the
operations of a host program (R91, R92). -/

namespace Sys2Proof

/-- The commands, one constructor per row of the opcode table (30_encoding.md R88). A command word carries no
operand (R87), so no constructor has a field. -/
inductive Instr where
  /-- NOP, 43_control.md R220. -/
  | nop
  /-- QUANT, 40_quantizer.md R104. -/
  | quant
  /-- ENC.I, 41_encoder.md R131. -/
  | encI
  /-- ENC.F, 41_encoder.md R132. -/
  | encF
  /-- DEC.FAST.RGB, 42_decoder.md R177. -/
  | decFastRgb
  /-- DEC.FAST.LUMA, 42_decoder.md R178. -/
  | decFastLuma
  /-- DEC.FAST.CHROMA, 42_decoder.md R179. -/
  | decFastChroma
  /-- DEC.ACC.RGB, 42_decoder.md R180. -/
  | decAccRgb
  /-- DEC.ACC.LUMA, 42_decoder.md R181. -/
  | decAccLuma
  /-- DEC.ACC.CHROMA, 42_decoder.md R182. -/
  | decAccChroma
  /-- SRST, 43_control.md R221. -/
  | srst
deriving DecidableEq, Repr

/-- The decoder's sampling methods (30_encoding.md R84). -/
inductive Method where
  | fast
  | accurate
deriving DecidableEq, Repr

/-- The decoder's output modes (30_encoding.md R85). -/
inductive Mode where
  | rgb
  | luma
  | chroma
deriving DecidableEq, Repr

/-- A command word cut into its fields (30_encoding.md R81). -/
structure CmdFields where
  op     : BitVec 4
  p      : BitVec 1
  method : BitVec 2
  mode   : BitVec 2
  rsvd   : BitVec 23
deriving DecidableEq, Repr

/-- Why a command word is illegal (60_exceptions.md R233). The hardware reports one code for all of them. -/
inductive Illegal where
  /-- A bit of RSVD (31:9) is set (30_encoding.md R86). -/
  | reservedBits
  /-- OP is 0x4 to 0xE (30_encoding.md R82). -/
  | reservedOp
  /-- A field the OP does not use is not zero (30_encoding.md R83, R84, R85). -/
  | unusedField
  /-- DEC with METHOD 0b10 (the reenigne decoder) or 0b11 (30_encoding.md R84). -/
  | reservedMethod
  /-- DEC with MODE 0b11 (30_encoding.md R85). -/
  | reservedMode
deriving DecidableEq, Repr

/-- One line of a host program (30_encoding.md R91, R92). `n` is the access width in bytes as the host asks for
it; a width the block does not offer is refused (20_memory.md R62). -/
inductive HostOp where
  /-- `MemRead(addr, n)`. -/
  | read (addr : Word) (n : Nat)
  /-- `MemWrite(addr, n, v)`. -/
  | write (addr : Word) (n : Nat) (v : Word)
  /-- `poll`: read STATUS until BUSY reads 0 (30_encoding.md R92). -/
  | poll
deriving DecidableEq, Repr

/-- The command's name in upper case, as 30_encoding.md R88 and R93 print it. -/
def Instr.mnemonic : Instr → String
  | .nop => "NOP"
  | .quant => "QUANT"
  | .encI => "ENC.I"
  | .encF => "ENC.F"
  | .decFastRgb => "DEC.FAST.RGB"
  | .decFastLuma => "DEC.FAST.LUMA"
  | .decFastChroma => "DEC.FAST.CHROMA"
  | .decAccRgb => "DEC.ACC.RGB"
  | .decAccLuma => "DEC.ACC.LUMA"
  | .decAccChroma => "DEC.ACC.CHROMA"
  | .srst => "SRST"

/-- Every command, in the order of the opcode table. -/
def Instr.all : List Instr :=
  [.nop, .quant, .encI, .encF, .decFastRgb, .decFastLuma, .decFastChroma,
    .decAccRgb, .decAccLuma, .decAccChroma, .srst]

/-- The command that host text names; mnemonics are case-insensitive in host text (30_encoding.md R93). -/
def Instr.ofMnemonic? (text : String) : Option Instr :=
  Instr.all.find? fun i => i.mnemonic == text.toUpper

end Sys2Proof
end

