-- ==== Sys2Proof/Config.lean ====
section
/-! DEFINITION. The types of the configuration parameters (00_scope.md R5) and the uninterpreted constants the
model uses where the spec leaves a value open. The default values stand in Machine/Tables.lean. -/

namespace Sys2Proof

/-- Three values of one kind: the channels R, G, B, or the components Y, I, Q. -/
structure Vec3 (α : Type) where
  x : α
  y : α
  z : α
deriving DecidableEq, Repr

/-- `FLOAT_FMT`: a binary interchange layout, sign then exponent then fraction, of at most 32 bits, rounding to
nearest even (00_scope.md R5, R8, 92_eei_decisions.md D9; log 7). -/
structure FloatFmt where
  expBits  : Nat
  fracBits : Nat
deriving DecidableEq, Repr

/-- `TRIG`: where the cosine and sine of the hue come from (00_scope.md R5, 92_eei_decisions.md D18; log 8, log 24). -/
inductive Trig where
  /-- The `FLOAT_FMT` value nearest the exact real function: the default. -/
  | nearest
  /-- Some other function of the hue's bit pattern, of which nothing is known. -/
  | unstated
deriving DecidableEq, Repr

/-- `PHASE_REF` (42_decoder.md R166, 92_eei_decisions.md D14). -/
inductive PhaseRef where
  | absolute
  | windowRelative
deriving DecidableEq, Repr

/-- `EDGE_PREV` (41_encoder.md R126, 92_eei_decisions.md D11). -/
inductive EdgePrev where
  | neighbour
  | sameHue
  | none
deriving DecidableEq, Repr

/-- The grouping of the float path's edge condition (41_encoder.md R127, 93_implementation_defined.md U8). -/
inductive EdgeGroup where
  /-- `(rising or falling) and EDGE`: the spec's choice. -/
  | flagged
  /-- `rising or (falling and EDGE)`: the other reading of U8. -/
  | fallingOnly
deriving DecidableEq, Repr

/-- `CHROMA_DOMAIN` (42_decoder.md R173, 92_eei_decisions.md D20). -/
inductive ChromaDomain where
  | normalised
  | byte
deriving DecidableEq, Repr

/-- The source's numeric literals, which U2 asks a model to keep as arguments (93_implementation_defined.md U2).
Floats are bit patterns of `FLOAT_FMT` (10_state.md R38; log 9). -/
structure Literals where
  /-- The 768 of `value * 768 >> 10`. -/
  lumaMul    : Nat
  /-- The 10 of `value * 768 >> 10`. -/
  lumaShift  : Nat
  /-- `LUMA_ATTEN` of the float path. -/
  lumaAtten  : Word
  /-- `EDGE_ATTEN`. -/
  edgeAtten  : Word
  /-- `INTENSITY_GAIN` of the integer path. -/
  intensityI : Nat
  /-- `INTENSITY_GAIN` of the float path. -/
  intensityF : Word
  /-- `CHROMA_GAIN`. -/
  chromaGain : Word
  /-- `CHROMA_BIAS`. -/
  chromaBias : Word
  /-- `FAST_N`, the samples of the fast window and its divisor. -/
  fastN      : Nat
deriving DecidableEq, Repr

/-- An 8×8 table indexed by base hue and phase position (10_state.md R31, R33). -/
abbrev Table8 (α : Type) := Vector (Vector α 8) 8

/-- The waveform and edge tables. The source prints none of the three (91_not_in_source.md N2), so the hardware's own
are uninterpreted constants, not values of the state; a configuration may give tables instead, such as the test
fixture of 95_test_vectors.md (log 6). -/
inductive WaveTables where
  /-- The hardware's own tables. -/
  | hardware
  /-- `WAVE_F`, `WAVE_B` and `EDGE` given by the configuration (10_state.md R31, R33). -/
  | given (waveF : Table8 Word) (waveB : Table8 Byte) (edge : Table8 Bool)
deriving DecidableEq, Repr

/-- The FIR weight sets (10_state.md R35): the values the spec prints, or the formula of 42_decoder.md R161 under
another cutoff or number of taps, which U2 asks a model to keep as arguments (log 9). -/
inductive FirSource where
  /-- FIR30 and FIR15; `N_FIR_A` and `N_FIR_B` are their lengths. -/
  | given (fir30 fir15 : List Word)
  /-- The formula, with `FC = fcNum/fcDen` cycles a sample, `N_FIR_A` and `N_FIR_B`. -/
  | formula (fcNum fcDen nFirA nFirB : Nat)
deriving DecidableEq, Repr

/-- The configuration: every parameter of 00_scope.md R5 and every constant table of 10_state.md R30 to R36. It is
part of the model's state (10_state.md R45), and no step changes it (R37). Floats are `FLOAT_FMT` bit patterns. -/
structure Config where
  /-- `W`: the row length the buffer capacities are made for (10_state.md R40; log 18). -/
  rowPixels   : Nat
  /-- `WIDTH_SET`. -/
  widthSet    : List Nat
  /-- `MAX_H`. -/
  maxH        : Nat
  /-- `PALETTE` (10_state.md R30). -/
  palette     : Vector (Vec3 Byte) 16
  /-- `WAVE_F`, `WAVE_B` and `EDGE` (10_state.md R31, R33). -/
  waves       : WaveTables
  /-- PHASE: (PCOS, PSIN) (42_decoder.md R166). -/
  phase       : Vector (Word × Word) 8
  /-- FIR30 and FIR15, by `FC`, `N_FIR_A` and `N_FIR_B` (42_decoder.md R161, R162). -/
  fir         : FirSource
  /-- `YIQ2RGB`, by rows (10_state.md R36). -/
  yiq2rgb     : Vec3 (Vec3 Word)
  /-- The source's numeric literals. -/
  lit         : Literals
  /-- `FLOAT_FMT`. -/
  floatFmt    : FloatFmt
  /-- `TRIG`. -/
  trig        : Trig
  /-- `PHASE_REF`. -/
  phaseRef    : PhaseRef
  /-- `FAST_WINDOW_OFFSET`. -/
  fastOffset  : Int
  /-- `ACC_TAP_OFFSET`. -/
  accOffset   : Int
  /-- `ACC_TAP_STRIDE`. -/
  accStride   : Int
  /-- `ACC_SUBPIXEL_SHIFT`: the spec has no rule for any value but 0 (42_decoder.md R168). -/
  accSubpixel : Int
  /-- `EDGE_PREV`. -/
  edgePrev    : EdgePrev
  /-- The grouping of the edge condition. -/
  edgeGroup   : EdgeGroup
  /-- `CHROMA_DOMAIN`. -/
  chroma      : ChromaDomain
deriving DecidableEq, Repr

/-- The free values: the k-th byte the hardware draws where the spec says *any value*
(93_implementation_defined.md U1, U3, U5; log 4). UNVERIFIED and uninterpreted: nothing is known of it. -/
opaque Config.freeByte : Nat → Byte

/-- The cosine pattern of a hue pattern where `TRIG` is not the default, or where the default's enclosure does not
settle the nearest float (log 8). Uninterpreted. -/
opaque Config.freeCos : Word → Word

/-- The sine pattern of a hue pattern, as `Config.freeCos` (log 8). Uninterpreted. -/
opaque Config.freeSin : Word → Word

/-- The hardware's WAVE_F cells, which no source prints (91_not_in_source.md N2; log 6). Uninterpreted. -/
opaque Config.hwWaveF : Fin 8 → Fin 8 → Word

/-- The hardware's WAVE_B cells, which no source prints (91_not_in_source.md N2; log 6). Uninterpreted. -/
opaque Config.hwWaveB : Fin 8 → Fin 8 → Byte

/-- The hardware's EDGE flags, which no source prints (91_not_in_source.md N2; log 6). Uninterpreted. -/
opaque Config.hwEdge : Fin 8 → Fin 8 → Bool

/-- A weight of the FIR formula that its enclosure does not settle (log 9). Uninterpreted. -/
opaque Config.freeFir : Nat → Nat → Word

end Sys2Proof
end

