-- ==== Sys2Proof/WellFormed.lean ====
section
/-! DEFINITION. The checks on syntax and on the configuration: which field combinations are one of the eleven legal
command words (30_encoding.md R81 to R88), and which configurations keep the spec's constraints
(00_scope.md R5, 10_state.md R32, 20_memory.md R61). -/

namespace Sys2Proof

/-- A command carries no operand (30_encoding.md R87), so nothing of it can be ill-formed: every value of `Instr` is
one of the eleven legal words (R88). What can be ill-formed is a combination of fields: `CmdFields.wellFormed`. -/
def Instr.wellFormed (_ : Instr) : Bool := true

/-- Bits 31:9 must be 0 in every command (30_encoding.md R86). -/
def CmdFields.rsvdOk (f : CmdFields) : Bool := f.rsvd == 0

/-- OP is one of the five that 30_encoding.md R82 assigns. -/
def CmdFields.opOk (f : CmdFields) : Bool :=
  f.op == 0x0 || f.op == 0x1 || f.op == 0x2 || f.op == 0x3 || f.op == 0xF

/-- P is 0 but in ENC (30_encoding.md R83). -/
def CmdFields.pOk (f : CmdFields) : Bool := f.op == 0x2 || f.p == 0

/-- METHOD is 0 but in DEC, and there `fast` or `accurate` (30_encoding.md R84). -/
def CmdFields.methodOk (f : CmdFields) : Bool :=
  f.method == 0 || (f.op == 0x3 && f.method == 1)

/-- MODE is 0 but in DEC, and there not 0b11 (30_encoding.md R85). -/
def CmdFields.modeOk (f : CmdFields) : Bool :=
  f.mode == 0 || (f.op == 0x3 && f.mode != 3)

/-- The fields are those of a legal command word (30_encoding.md R88). -/
def CmdFields.wellFormed (f : CmdFields) : Bool :=
  f.rsvdOk && f.opOk && f.pOk && f.methodOk && f.modeOk

/-- The pattern of 1.0: the biased exponent of 1 over a zero fraction. -/
def FloatFmt.onePattern (f : FloatFmt) : Nat := (2 ^ (f.expBits - 1) - 1) * 2 ^ f.fracBits

/-- The layout fits a 32-bit register (10_state.md R27; log 7). -/
def FloatFmt.wellFormed (f : FloatFmt) : Bool :=
  decide (2 ≤ f.expBits) && decide (1 ≤ f.fracBits) && decide (1 + f.expBits + f.fracBits ≤ 32)

/-- `MAX_H` keeps every buffer inside its 1 MiB window (20_memory.md R61), and every accepted width fits a row of
the buffers (10_state.md R40). -/
def Config.sizesOk (c : Config) : Bool :=
  decide (4 * c.rowPixels * c.maxH ≤ 0x100000) && c.widthSet.all fun w => decide (1 ≤ w ∧ w ≤ c.rowPixels)

/-- Every cell of a given WAVE_F is in [0.0, 1.0] (10_state.md R32): patterns of non-negative floats are ordered as
the numbers are. The pattern of −0.0 is refused, a point the rule leaves open (DESIGN CHOICE; log 21). -/
def waveFOk (one : Nat) (waveF : Table8 Word) : Bool :=
  (List.finRange 8).all fun hue => (List.finRange 8).all fun p => decide (waveF[hue][p].toNat ≤ one)

/-- Rows 0 (Black) and 7 (White) of given waveform tables (10_state.md R32). Black's 0.0 is the pattern of +0.0 alone
(DESIGN CHOICE; log 21). -/
def waveRowsOk (one : Nat) (waveF : Table8 Word) (waveB : Table8 Byte) : Bool :=
  (List.finRange 8).all fun p =>
    waveB[(0 : Fin 8)][p] == 0 && waveB[(7 : Fin 8)][p] == 255 &&
    waveF[(0 : Fin 8)][p] == 0 && waveF[(7 : Fin 8)][p] == BitVec.ofNat 32 one

/-- Given tables keep the constraints of 10_state.md R32; the hardware's own keep them by how Machine/Tables.lean reads
them (log 6). -/
def Config.wavesOk (c : Config) : Bool :=
  match c.waves with
  | .hardware => true
  | .given f b _ => waveFOk c.floatFmt.onePattern f && waveRowsOk c.floatFmt.onePattern f b

/-- The configuration keeps the constraints the spec states (00_scope.md R5, 10_state.md R32, 20_memory.md R61). -/
def Config.wellFormed (c : Config) : Bool :=
  c.floatFmt.wellFormed && c.sizesOk && c.wavesOk

end Sys2Proof
end

