-- ==== Sys2Proof/Decode.lean ====
section
/-! DEFINITION. The decoder of command words (30_encoding.md R87), total on every 32-bit word, and the encoder
(R88). -/

namespace Sys2Proof

/-- Cut a word into the fields of 30_encoding.md R81. -/
def fieldsOf (c : Word) : CmdFields where
  op     := c.extractLsb' 0 4
  p      := c.extractLsb' 4 1
  method := c.extractLsb' 5 2
  mode   := c.extractLsb' 7 2
  rsvd   := c.extractLsb' 9 23

/-- Join fields into a word, bit 31 leftmost (30_encoding.md R81). -/
def wordOf (f : CmdFields) : Word := f.rsvd ++ f.mode ++ f.method ++ f.p ++ f.op

/-- The DEC command of a method and a mode (30_encoding.md R88). -/
def decOf : Method → Mode → Instr
  | .fast, .rgb => .decFastRgb
  | .fast, .luma => .decFastLuma
  | .fast, .chroma => .decFastChroma
  | .accurate, .rgb => .decAccRgb
  | .accurate, .luma => .decAccLuma
  | .accurate, .chroma => .decAccChroma

/-- METHOD's values (30_encoding.md R84). -/
def methodOf (m : BitVec 2) : Except Illegal Method :=
  if m = 0 then .ok .fast else if m = 1 then .ok .accurate else .error .reservedMethod

/-- MODE's values (30_encoding.md R85). -/
def modeOf (m : BitVec 2) : Except Illegal Mode :=
  if m = 0 then .ok .rgb else if m = 1 then .ok .luma else if m = 2 then .ok .chroma
  else .error .reservedMode

/-- `i` where the fields its OP does not use are zero, else illegal (30_encoding.md R83 to R85). -/
def unlessUsed (unused : Bool) (i : Instr) : Except Illegal Instr :=
  if unused then .ok i else .error .unusedField

/-- The command that fields stand for, RSVD already seen to be 0 (30_encoding.md R87). -/
def decodeFields (f : CmdFields) : Except Illegal Instr :=
  if f.op = 0x0 then unlessUsed (f.p == 0 && f.method == 0 && f.mode == 0) .nop
  else if f.op = 0x1 then unlessUsed (f.p == 0 && f.method == 0 && f.mode == 0) .quant
  else if f.op = 0x2 then
    unlessUsed (f.method == 0 && f.mode == 0) (if f.p = 1 then .encF else .encI)
  else if f.op = 0x3 then
    if f.p = 0 then do
      let method ← methodOf f.method
      let mode ← modeOf f.mode
      return decOf method mode
    else .error .unusedField
  else if f.op = 0xF then unlessUsed (f.p == 0 && f.method == 0 && f.mode == 0) .srst
  else .error .reservedOp

/-- Decode a command word (30_encoding.md R87): a command, or why the word is illegal. -/
def decode (c : Word) : Except Illegal Instr :=
  if (fieldsOf c).rsvd = 0 then decodeFields (fieldsOf c) else .error .reservedBits

/-- The fields of each command's word (30_encoding.md R88). -/
def encodeFields : Instr → CmdFields
  | .nop => ⟨0x0, 0, 0, 0, 0⟩
  | .quant => ⟨0x1, 0, 0, 0, 0⟩
  | .encI => ⟨0x2, 0, 0, 0, 0⟩
  | .encF => ⟨0x2, 1, 0, 0, 0⟩
  | .decFastRgb => ⟨0x3, 0, 0, 0, 0⟩
  | .decFastLuma => ⟨0x3, 0, 0, 1, 0⟩
  | .decFastChroma => ⟨0x3, 0, 0, 2, 0⟩
  | .decAccRgb => ⟨0x3, 0, 1, 0, 0⟩
  | .decAccLuma => ⟨0x3, 0, 1, 1, 0⟩
  | .decAccChroma => ⟨0x3, 0, 1, 2, 0⟩
  | .srst => ⟨0xF, 0, 0, 0, 0⟩

/-- The command word of a command (30_encoding.md R88). -/
def encode (i : Instr) : Word := wordOf (encodeFields i)

/-- The command the decoder reads from the first `nbits` bits of `w`. The decoder reads the word in one piece
(30_encoding.md R80), so there are no bytes to lay out. -/
def decodeTableWord (nbits w : Nat) : Option Instr :=
  (decode (BitVec.ofNat 32 (w % 2 ^ nbits))).toOption

end Sys2Proof
end

