-- ==== Sys2Proof/Machine/Tables.lean ====
section
/-! DEFINITION. The constant tables and the default configuration (10_state.md R30 to R36, 00_scope.md R5). -/

namespace Sys2Proof.Machine

/-- The default `PALETTE`, the IBM CGA RGBI colours (10_state.md R30; PRESUMED by the spec, log 5). -/
def palette : Vector (Vec3 Byte) 16 :=
  #v[⟨0x00, 0x00, 0x00⟩, ⟨0x00, 0x00, 0xAA⟩, ⟨0x00, 0xAA, 0x00⟩, ⟨0x00, 0xAA, 0xAA⟩,
     ⟨0xAA, 0x00, 0x00⟩, ⟨0xAA, 0x00, 0xAA⟩, ⟨0xAA, 0x55, 0x00⟩, ⟨0xAA, 0xAA, 0xAA⟩,
     ⟨0x55, 0x55, 0x55⟩, ⟨0x55, 0x55, 0xFF⟩, ⟨0x55, 0xFF, 0x55⟩, ⟨0x55, 0xFF, 0xFF⟩,
     ⟨0xFF, 0x55, 0x55⟩, ⟨0xFF, 0x55, 0xFF⟩, ⟨0xFF, 0xFF, 0x55⟩, ⟨0xFF, 0xFF, 0xFF⟩]

/-- A cell of the hardware's own waveform table: rows 0 (Black) and 7 (White) are those the spec takes, the others
uninterpreted (10_state.md R32; log 6). -/
def waveCell {α : Type} (black white : α) (hw : Fin 8 → Fin 8 → α) (hue p : Fin 8) : α :=
  if hue = 0 then black else if hue = 7 then white else hw hue p

/-- A pattern held to the range [0.0, 1.0] the source states for WAVE_F (10_state.md R32; log 6). A pattern with its sign
set, −0.0 too, reads as 1.0 (DESIGN CHOICE; log 21). -/
def unitPattern (one w : Word) : Word := if w ≤ one then w else one

/-- `WAVE_F[hue][p]` (10_state.md R31, R32; log 6). -/
def waveFCell (c : Config) (hue p : Fin 8) : Word :=
  let one := BitVec.ofNat 32 c.floatFmt.onePattern
  match c.waves with
  | .hardware => waveCell 0 one (fun hue p => unitPattern one (Config.hwWaveF hue p)) hue p
  | .given f _ _ => f[hue][p]

/-- `WAVE_B[hue][p]` (10_state.md R31, R32; log 6). -/
def waveBCell (c : Config) (hue p : Fin 8) : Byte :=
  match c.waves with
  | .hardware => waveCell 0 255 Config.hwWaveB hue p
  | .given _ b _ => b[hue][p]

/-- `EDGE[hue][p]` (10_state.md R33; log 6). -/
def edgeCell (c : Config) (hue p : Fin 8) : Bool :=
  match c.waves with
  | .hardware => Config.hwEdge hue p
  | .given _ _ e => e[hue][p]

/-- PHASE: (PCOS, PSIN) of `(m − 4)·π/4` for m = 0..7 (42_decoder.md R166). -/
def phase : Vector (Word × Word) 8 :=
  #v[(0xBF800000, 0x00000000), (0xBF3504F3, 0xBF3504F3),
     (0x00000000, 0xBF800000), (0x3F3504F3, 0xBF3504F3),
     (0x3F800000, 0x00000000), (0x3F3504F3, 0x3F3504F3),
     (0x00000000, 0x3F800000), (0xBF3504F3, 0x3F3504F3)]

/-- FIR30 (42_decoder.md R161). -/
def fir30 : List Word :=
  [0x00000000, 0xB98577EB, 0xB9EC0973, 0x3A8D81AF, 0x3BA1C244,
   0x3C06C447, 0x3BABEE5A, 0xBBFB9F39, 0xBCD73BB9, 0xBD15FE1B,
   0xBCAD0C1E, 0x3CF5FA0D, 0x3DDF9A3D, 0x3E437260, 0x3E78AAAF,
   0x3E78AAAF, 0x3E437260, 0x3DDF9A3D, 0x3CF5FA0D, 0xBCAD0C1E,
   0xBD15FE1B, 0xBCD73BB9, 0xBBFB9F39, 0x3BABEE5A, 0x3C06C447,
   0x3BA1C244, 0x3A8D81AF, 0xB9EC0973, 0xB98577EB, 0x00000000]

/-- FIR15 (42_decoder.md R162). -/
def fir15 : List Word :=
  [0x00000000, 0xBB2B2ACA, 0xBC0A0C6A, 0x00000000, 0x3D3AC456,
   0x3E0388D2, 0x3E59CFA3, 0x3E7E87CF, 0x3E59CFA3, 0x3E0388D2,
   0x3D3AC456, 0x00000000, 0xBC0A0C6A, 0xBB2B2ACA, 0x00000000]

/-- The default `YIQ2RGB`, by rows (10_state.md R36; patterns from 93_implementation_defined.md; PRESUMED by the
spec, log 5). -/
def yiq2rgb : Vec3 (Vec3 Word) :=
  ⟨⟨0x3F800000, 0x3F74BC6A, 0x3F1E76C9⟩,
   ⟨0x3F800000, 0xBE8B4396, 0xBF25A1CB⟩,
   ⟨0x3F800000, 0xBF8D9168, 0x3FD9FBE7⟩⟩

/-- The source's literals (00_scope.md R5, 10_state.md R38). -/
def sourceLiterals : Literals where
  lumaMul    := 768
  lumaShift  := 10
  lumaAtten  := 0x3F400000
  edgeAtten  := 0x3F4CCCCD
  intensityI := 64
  intensityF := 0x3E800000
  chromaGain := 0x42200000
  chromaBias := 0x3F000000
  fastN      := 8

/-- IEEE 754 binary32, the default `FLOAT_FMT` (00_scope.md R5). -/
def binary32 : FloatFmt := ⟨8, 23⟩

/-- The configuration at power-on: every parameter at the default of 00_scope.md R5, every table as 10_state.md R44
says (log 5, log 6). -/
def defaultConfig : Config where
  rowPixels   := 640
  widthSet    := [640]
  maxH        := 400
  palette     := palette
  waves       := .hardware
  phase       := phase
  fir         := .given fir30 fir15
  yiq2rgb     := yiq2rgb
  lit         := sourceLiterals
  floatFmt    := binary32
  trig        := .nearest
  phaseRef    := .absolute
  fastOffset  := -4
  accOffset   := -15
  accStride   := 1
  accSubpixel := 0
  edgePrev    := .neighbour
  edgeGroup   := .flagged
  chroma      := .normalised

end Sys2Proof.Machine
end

