-- ==== Sys2Proof/Machine/State.lean ====
section
/-! DEFINITION. The machine's state (10_state.md R45), its value after power-on reset (R44), the model faults and the
refusals. -/

namespace Sys2Proof.Machine

/-- The bytes of a buffer that have been written, by rising offset. An offset not listed is unwritten and holds no
value (10_state.md R41; log 17). -/
abbrev Memory := List Host.Cell

/-- The model faults of 60_exceptions.md R240. They are recorded in `State.faults` and do not stop the machine (log 3),
so no step ends with one. -/
inductive Fault where
  /-- F_UNINIT: a command read a buffer byte that is unwritten. Raised by QUANT, ENC and DEC. Safe: what was computed
  from the byte is a free value. -/
  | uninit
deriving DecidableEq, Repr

/-- Why the machine has no step. -/
inductive Refusal where
  /-- An instruction without a meaning. No arm of `exec` answers this. Safe. -/
  | notModelled (mnemonic : String)
  /-- A host access of a width other than 1 or 4 bytes (20_memory.md R62). Raised by the host's step. Safe: the spec
  gives the access no step. -/
  | hostWidth (n : Nat)
  /-- A host access to an address outside the register file and the buffers' capacities (20_memory.md R61, R65).
  Raised by the host's step. Safe: the spec gives the access no step. -/
  | hostUnmapped (addr : Word)
  /-- A byte access to the register file (20_memory.md R62). Raised by the host's step. Safe: the spec gives the access
  no step. -/
  | hostByteToRegister (addr : Word)
  /-- A word access at an address that is not a multiple of 4 (20_memory.md R64). Raised by the host's step. Safe: the
  spec gives the access no step. -/
  | hostMisaligned (addr : Word)
  /-- An accurate DEC under a configuration with ACC_SUBPIXEL_SHIFT ≠ 0 (42_decoder.md R168,
  93_implementation_defined.md U10). Raised by DEC.ACC.RGB, DEC.ACC.LUMA and DEC.ACC.CHROMA. Safe: the spec has no
  interpolation rule and asks a model to refuse. -/
  | subpixelShift
deriving DecidableEq, Repr

/-- The outcomes of this machine's step. -/
abbrev Outcome (σ : Type) := Host.Outcome σ Fault Refusal

/-- The agents that step (10_state.md R20). -/
inductive Agent where
  | host
  | engine
deriving DecidableEq, Repr

/-- The four raster buffers (10_state.md R40). -/
inductive BufId where
  | src
  | idx
  | comp
  | out
deriving DecidableEq, Repr

/-- The command word and the register copies the engine latches at issue (10_state.md R23, R42). -/
structure Latch where
  word   : Word
  width  : Half
  height : Half
  hue    : Word
  sat    : Word
  luma   : Word
deriving DecidableEq, Repr

/-- The engine's phase (10_state.md R42). STATUS.BUSY is 1 exactly when the phase is `busy`. -/
inductive Engine where
  | idle
  | busy (latch : Latch)
deriving DecidableEq, Repr

/-- The STATUS fields other than BUSY, which mirrors the engine's phase (10_state.md R24, R42). -/
structure Status where
  done    : Bool
  err     : Bool
  haz     : Bool
  errCode : BitVec 4
deriving DecidableEq, Repr

/-- The value a host read returned: its address, its width in bytes, and the value, a byte zero-extended. -/
structure Reply where
  addr  : Word
  size  : Nat
  value : Word
deriving DecidableEq, Repr

/-- The model's state: the record of 10_state.md R45, then four fields of the model's own, which stand for the host
and for the choices the spec leaves open (log 1, log 2, log 4). -/
structure State where
  /-- The configuration parameters and constant tables (10_state.md R45, R37). -/
  cfg     : Config
  /-- WIDTH bits 15:0 (10_state.md R25; log 11). -/
  width   : Half
  /-- HEIGHT bits 15:0 (10_state.md R26; log 11). -/
  height  : Half
  /-- HUE (10_state.md R27). -/
  hue     : Word
  /-- SAT (10_state.md R28). -/
  sat     : Word
  /-- LUMA (10_state.md R29). -/
  luma    : Word
  /-- STATUS, less BUSY (10_state.md R24). -/
  status  : Status
  /-- The engine's phase and latches (10_state.md R42). -/
  engine  : Engine
  /-- SRC (10_state.md R40). -/
  src     : Memory
  /-- IDX (10_state.md R40). -/
  idx     : Memory
  /-- COMP (10_state.md R40). -/
  comp    : Memory
  /-- OUT (10_state.md R40). -/
  out     : Memory
  /-- The model fault set (60_exceptions.md R240): no repeats. -/
  faults  : List Fault
  /-- The model's own: the host's program still to run, in program order (log 1). -/
  pending : List HostOp
  /-- The model's own: which agent moves at each of the next steps (70_reset_and_hazards.md R270; log 2). -/
  turns   : List Agent
  /-- The model's own: what host reads have returned, newest first (log 1). -/
  replies : List Reply
  /-- The model's own: how many free bytes have been drawn (log 4). -/
  draws   : Nat
deriving DecidableEq, Repr

/-- The value WIDTH takes at power-on and at SRST (10_state.md R44, 43_control.md R221). -/
def resetWidth : Half := 640

/-- The value HEIGHT takes at power-on and at SRST. -/
def resetHeight : Half := 0

/-- The value HUE takes at power-on and at SRST: +0.0. -/
def resetHue : Word := 0x00000000

/-- The value SAT takes at power-on and at SRST: 1.0. -/
def resetSat : Word := 0x3F800000

/-- The value LUMA takes at power-on and at SRST: 1.0. -/
def resetLuma : Word := 0x3F800000

/-- The machine after power-on reset (10_state.md R44, 70_reset_and_hazards.md R261). The last four fields are the
model's own: no program, no schedule, nothing read, nothing drawn (DESIGN CHOICE; log 1, log 2, log 4). -/
def State.reset : State where
  cfg     := defaultConfig
  width   := resetWidth
  height  := resetHeight
  hue     := resetHue
  sat     := resetSat
  luma    := resetLuma
  status  := ⟨false, false, false, 0⟩
  engine  := .idle
  src     := []
  idx     := []
  comp    := []
  out     := []
  faults  := []
  pending := []
  turns   := []
  replies := []
  draws   := 0

end Sys2Proof.Machine
end

