-- ==== Sys2Proof/Machine/Flags.lean ====
section
/-! DEFINITION. STATUS (10_state.md R24): its word, and every change of its fields that a rule makes. -/

namespace Sys2Proof.Machine

/-- STATUS.BUSY mirrors the engine's phase (10_state.md R42). -/
def State.busy (s : State) : Bool :=
  match s.engine with
  | .idle => false
  | .busy _ => true

/-- STATUS as a host read returns it: BUSY in bit 0, DONE 1, ERR 2, HAZ 3, ERRCODE 7:4, the rest 0
(10_state.md R24). -/
def State.statusWord (s : State) : Word :=
  (0 : BitVec 24) ++ s.status.errCode ++ BitVec.ofBool s.status.haz ++ BitVec.ofBool s.status.err ++
    BitVec.ofBool s.status.done ++ BitVec.ofBool s.busy

/-- The error codes (60_exceptions.md R232). -/
inductive ErrCode where
  | illegal
  | dim
  | index
deriving DecidableEq, Repr

/-- The value ERRCODE holds for an error (60_exceptions.md R232). -/
def errCodeBits : ErrCode → BitVec 4
  | .illegal => 1
  | .dim => 2
  | .index => 3

/-- DONE, ERR and ERRCODE cleared, HAZ kept: what issuing a command and SRST do (10_state.md R23, 43_control.md R221). -/
def Status.cleared (t : Status) : Status := { t with done := false, err := false, errCode := 0 }

/-- DONE set (43_control.md R220, 40_quantizer.md R104). -/
def Status.completed (t : Status) : Status := { t with done := true }

/-- ERR and ERRCODE set, DONE cleared, HAZ kept (60_exceptions.md R231). -/
def Status.errored (t : Status) (e : ErrCode) : Status :=
  { t with done := false, err := true, errCode := errCodeBits e }

/-- HAZ set, nothing else changed (60_exceptions.md R238). -/
def Status.hazarded (t : Status) : Status := { t with haz := true }

end Sys2Proof.Machine
end

