-- ==== Sys2Proof/Machine/Ops.lean ====
section
/-! DEFINITION. The named operations over buffers, registers and the engine that every meaning is built from: byte
reads and writes, whole-region writes, issuing a command, completing one, and ending one with an error. -/

namespace Sys2Proof.Machine

/-- The byte at an offset, if it has been written. This is the one place that says what an unlisted offset reads as. -/
def Memory.read : Memory → Nat → Option Byte
  | [], _ => none
  | c :: m, off => if c.1 = off then some c.2 else Memory.read m off

/-- The canonical form: offsets strictly rising. No entry can be equal to what an unlisted offset reads as, which is
no value. -/
abbrev Memory.wf (m : Memory) : Prop := m.Pairwise fun a b => a.1 < b.1

/-- Write one byte, keeping offsets strictly rising (10_state.md R41). -/
def Memory.write : Memory → Nat → Byte → Memory
  | [], off, b => [(off, b)]
  | c :: m, off, b =>
    if off < c.1 then (off, b) :: c :: m
    else if off = c.1 then (off, b) :: m
    else c :: Memory.write m off b

/-- Bytes laid out one after another from an offset. -/
def cellsFrom : Nat → List Byte → Memory
  | _, [] => []
  | off, b :: bs => (off, b) :: cellsFrom (off + 1) bs

/-- Write the bytes at offsets 0, 1, …, leaving every byte past them as it was: how a command writes its whole
destination region, each byte exactly once (20_memory.md R68, 10_state.md R40). -/
def Memory.overwrite (m : Memory) (bytes : List Byte) : Memory :=
  cellsFrom 0 bytes ++ m.filter fun c => decide (bytes.length ≤ c.1)

/-- A buffer's contents. -/
def State.buf (s : State) : BufId → Memory
  | .src => s.src
  | .idx => s.idx
  | .comp => s.comp
  | .out => s.out

/-- A buffer's contents replaced. -/
def State.setBuf (s : State) (b : BufId) (m : Memory) : State :=
  match b with
  | .src => { s with src := m }
  | .idx => { s with idx := m }
  | .comp => { s with comp := m }
  | .out => { s with out := m }

/-- The latches a command issued now would take: the word and copies of the registers (10_state.md R23). -/
def State.latchNow (s : State) (word : Word) : Latch :=
  ⟨word, s.width, s.height, s.hue, s.sat, s.luma⟩

/-- Issue a command word: latch it and the registers, clear DONE, ERR and ERRCODE, set BUSY (10_state.md R23). -/
def State.issue (s : State) (word : Word) : State :=
  { s with status := s.status.cleared, engine := .busy (s.latchNow word) }

/-- The latched operands. Where nothing is latched, which no step asks, the registers themselves (log 12). -/
def State.latch (s : State) : Latch :=
  match s.engine with
  | .idle => s.latchNow 0
  | .busy l => l

/-- End a command normally: BUSY cleared, DONE set (43_control.md R220). -/
def State.complete (s : State) : State :=
  { s with status := s.status.completed, engine := .idle }

/-- `raise Err(code)`, the block's one way to take an error (60_exceptions.md R231): no buffer is written, ERR and
ERRCODE are set, DONE and BUSY cleared, the engine is idle with nothing latched. Nothing is saved and there is no
return (60_exceptions.md R230, R237). -/
def State.raiseErr (s : State) (e : ErrCode) : State :=
  { s with status := s.status.errored e, engine := .idle }

/-- Record a model fault in the fault set (60_exceptions.md R240). -/
def State.recordFault (s : State) (f : Fault) : State :=
  if f ∈ s.faults then s else { s with faults := f :: s.faults }

/-- Record F_UNINIT where an unwritten byte was read. -/
def State.noteUninit (s : State) (uninit : Bool) : State :=
  if uninit then s.recordFault .uninit else s

/-- Count `n` drawn bytes. -/
def State.drew (s : State) (n : Nat) : State := { s with draws := s.draws + n }

/-- The effect of a command that succeeds: its destination region written, the draws counted, F_UNINIT recorded where
it read an unwritten byte, and the command completed (20_memory.md R68, 60_exceptions.md R240). -/
def State.finish (s : State) (dst : BufId) (bytes : List Byte) (uninit : Bool) : State :=
  (((s.setBuf dst ((s.buf dst).overwrite bytes)).drew bytes.length).noteUninit uninit).complete

/-- Set HAZ (60_exceptions.md R238). -/
def State.setHaz (s : State) : State := { s with status := s.status.hazarded }

/-- Give the host the value it read. -/
def State.reply (s : State) (addr : Word) (size : Nat) (value : Word) : State :=
  { s with replies := ⟨addr, size, value⟩ :: s.replies }

/-- Byte `i` of a word, byte 0 in bits 7:0 (20_memory.md R63). -/
def byteOfWord (v : Word) (i : Nat) : Byte := v.extractLsb' (8 * i) 8

/-- The word whose bytes are those given, the first in bits 7:0; a byte alone is zero-extended (20_memory.md R63). -/
def wordOfBytes : List Byte → Word
  | [] => 0
  | b :: bs => b.setWidth 32 ||| (wordOfBytes bs <<< 8)

/-- The byte a draw gives: the free byte at a place in the sequence of draws (log 4). -/
def drawAt (base off : Nat) : Byte := Config.freeByte (base + off)

end Sys2Proof.Machine
end

