-- ==== Sys2Proof/Machine/Operands.lean ====
section
/-! DEFINITION. A command's operands: the latched dimensions and their check, and raster addressing. -/

namespace Sys2Proof.Machine

/-- W in `WIDTH_SET` and 1 ≤ H ≤ `MAX_H` (60_exceptions.md R234). -/
def dimsOk (c : Config) (w h : Nat) : Bool := c.widthSet.contains w && decide (1 ≤ h) && decide (h ≤ c.maxH)

/-- The latched W. -/
def State.latchedW (s : State) : Nat := s.latch.width.toNat

/-- The latched H. -/
def State.latchedH (s : State) : Nat := s.latch.height.toNat

/-- Run a raster command on the latched dimensions, or end it with ERR_DIM (60_exceptions.md R234). -/
def withDims (s : State) (run : Nat → Nat → Outcome State) : Outcome State :=
  if dimsOk s.cfg s.latchedW s.latchedH then run s.latchedW s.latchedH
  else .next (s.raiseErr .dim)

/-- The element of cell (x, y) in a raster of width w (00_scope.md R10). -/
def cellAt (w x y : Nat) : Nat := y * w + x

/-- The column of an element of a raster of width w. -/
def colOf (w k : Nat) : Nat := k % w

/-- The row of an element of a raster of width w. -/
def rowOf (w k : Nat) : Nat := k / w

/-- `min(max(c, 0), n − 1)` for n ≥ 1 (42_decoder.md R164). -/
def clampTo (n : Nat) (c : Int) : Nat := min c.toNat (n - 1)

end Sys2Proof.Machine
end

