-- ==== Sys2Proof/Machine/HostPort.lean ====
section
/-! DEFINITION. The host's accesses: the address map, the register file and the buffer windows, the busy window, and
one step of a host program (20_memory.md, 70_reset_and_hazards.md R266, R268; log 1, log 15). -/

namespace Sys2Proof.Machine

/-- The registers of the register file (10_state.md R22). -/
inductive RegId where
  | cmd
  | status
  | width
  | height
  | hue
  | sat
  | luma
  | reserved
deriving DecidableEq, Repr

/-- What an address selects (20_memory.md R61). -/
inductive Target where
  | reg (r : RegId)
  | buf (b : BufId) (off : Nat)
deriving DecidableEq, Repr

/-- The register at a word offset of the register file; offsets past LUMA are reserved (10_state.md R22). -/
def regAt (off : Nat) : RegId :=
  if off = 0x00 then .cmd
  else if off = 0x04 then .status
  else if off = 0x08 then .width
  else if off = 0x0C then .height
  else if off = 0x10 then .hue
  else if off = 0x14 then .sat
  else if off = 0x18 then .luma
  else .reserved

/-- The host address of a register (10_state.md R22). -/
def regAddr : RegId → Word
  | .cmd => 0x00
  | .status => 0x04
  | .width => 0x08
  | .height => 0x0C
  | .hue => 0x10
  | .sat => 0x14
  | .luma => 0x18
  | .reserved => 0x1C

/-- The first host address of a buffer's window (20_memory.md R61). -/
def bufBase : BufId → Nat
  | .src => 0x00100000
  | .idx => 0x00200000
  | .comp => 0x00300000
  | .out => 0x00400000

/-- A buffer's capacity in bytes (10_state.md R40; log 18). -/
def capacity (c : Config) : BufId → Nat
  | .src => 4 * c.rowPixels * c.maxH
  | .idx => c.rowPixels * c.maxH
  | .comp => 2 * c.rowPixels * c.maxH
  | .out => 4 * c.rowPixels * c.maxH

/-- The address lies in a buffer's window (20_memory.md R61: each window is 1 MiB). -/
def inWindow (b : BufId) (a : Nat) : Bool := decide (bufBase b ≤ a) && decide (a < bufBase b + 0x00100000)

/-- The buffer whose window holds an address, if one does (20_memory.md R61). -/
def windowOf (a : Nat) : Option BufId := [BufId.src, .idx, .comp, .out].find? fun b => inWindow b a

/-- What an access of `n` bytes selects, or why it has no step (20_memory.md R61, R62, R64, R65). -/
def target (c : Config) (addr : Word) (n : Nat) : Except Refusal Target :=
  let a := addr.toNat
  if n ≠ 1 ∧ n ≠ 4 then .error (.hostWidth n)
  else if a < 0x40 then
    if n = 1 then .error (.hostByteToRegister addr)
    else if a % 4 ≠ 0 then .error (.hostMisaligned addr)
    else .ok (.reg (regAt a))
  else
    match windowOf a with
    | none => .error (.hostUnmapped addr)
    | some b =>
      if n = 4 ∧ a % 4 ≠ 0 then .error (.hostMisaligned addr)
      else if a - bufBase b + n ≤ capacity c b then .ok (.buf b (a - bufBase b))
      else .error (.hostUnmapped addr)

/-- The value of a register read (20_memory.md R66): CMD and reserved offsets read 0, reserved bits read 0. -/
def State.readReg (s : State) : RegId → Word
  | .cmd => 0
  | .status => s.statusWord
  | .width => s.width.setWidth 32
  | .height => s.height.setWidth 32
  | .hue => s.hue
  | .sat => s.sat
  | .luma => s.luma
  | .reserved => 0

/-- A register write with the engine idle (20_memory.md R66): reserved bits and STATUS and reserved offsets ignore it,
a CMD write issues the word (10_state.md R23). -/
def State.writeReg (s : State) (r : RegId) (v : Word) : State :=
  match r with
  | .cmd => s.issue v
  | .status => s
  | .width => { s with width := v.setWidth 16 }
  | .height => { s with height := v.setWidth 16 }
  | .hue => { s with hue := v }
  | .sat => { s with sat := v }
  | .luma => { s with luma := v }
  | .reserved => s

/-- `n` bytes of a buffer from an offset; an unwritten one reads as any value (20_memory.md R67, 10_state.md R41). -/
def bufBytes (m : Memory) (draws off n : Nat) : List Byte :=
  (List.range n).map fun i => (m.read (off + i)).getD (drawAt draws i)

/-- Write the low `n` bytes of a word to consecutive offsets, the lowest byte first (20_memory.md R63, R67). A byte write
of a value above 0xFF stores bits 7:0 and drops the rest, a point R62 and 30_encoding.md R91 leave open (DESIGN CHOICE;
log 23). -/
def writeBytes (m : Memory) (off n : Nat) (v : Word) : Memory :=
  (List.range n).foldl (fun m i => m.write (off + i) (byteOfWord v i)) m

/-- Any value: a word of `n` drawn bytes (70_reset_and_hazards.md R266, 93_implementation_defined.md U5). -/
def anyWord (draws n : Nat) : Word := wordOfBytes ((List.range n).map (drawAt draws))

/-- A host read with the engine idle (20_memory.md R66, R67). -/
def readIdle (s : State) (addr : Word) (n : Nat) (t : Target) : State :=
  match t with
  | .reg r => s.reply addr n (s.readReg r)
  | .buf b off => (s.reply addr n (wordOfBytes (bufBytes (s.buf b) s.draws off n))).drew n

/-- A host read in the busy window: STATUS reads as always; any other read sets HAZ and returns any value
(70_reset_and_hazards.md R266). -/
def readBusy (s : State) (addr : Word) (n : Nat) (t : Target) : State :=
  if t = .reg .status then s.reply addr n s.statusWord
  else ((s.setHaz).reply addr n (anyWord s.draws n)).drew n

/-- A host read that has a step. -/
def hostRead (s : State) (addr : Word) (n : Nat) (t : Target) : State :=
  if s.busy then readBusy s addr n t else readIdle s addr n t

/-- A host write with the engine idle (20_memory.md R66, R67). -/
def writeIdle (s : State) (n : Nat) (v : Word) (t : Target) : State :=
  match t with
  | .reg r => s.writeReg r v
  | .buf b off => s.setBuf b (writeBytes (s.buf b) off n v)

/-- A host write that has a step. In the busy window it is discarded and sets HAZ, a command word included
(70_reset_and_hazards.md R266, R268). -/
def hostWrite (s : State) (n : Nat) (v : Word) (t : Target) : State :=
  if s.busy then s.setHaz else writeIdle s n v t

/-- A host access, or the refusal that says it has no step; the refusal comes first, so a refused access sets nothing
(70_reset_and_hazards.md R266). -/
def access (s : State) (addr : Word) (n : Nat) (go : Target → State) : Outcome State :=
  match target s.cfg addr n with
  | .ok t => .next (go t)
  | .error r => .refused r

/-- The host's program less its next operation. -/
def State.popPending (s : State) : State := { s with pending := s.pending.tail }

/-- One read of the `poll` loop: it stays in the program while BUSY reads 1 (30_encoding.md R92). -/
def pollStep (s : State) : State :=
  if s.busy then s.reply (regAddr .status) 4 s.statusWord
  else s.popPending.reply (regAddr .status) 4 s.statusWord

/-- The host performs the next operation of its program, or waits where the program has ended (log 1, log 13). -/
def hostStep (s : State) : Outcome State :=
  match s.pending with
  | [] => .next s
  | .read addr n :: _ => access s addr n (hostRead s.popPending addr n)
  | .write addr n v :: _ => access s addr n (hostWrite s.popPending n v)
  | .poll :: _ => .next (pollStep s)

/-- `wr REG, v` (30_encoding.md R91). -/
def wr (r : RegId) (v : Word) : HostOp := .write (regAddr r) 4 v

/-- `rd REG` (30_encoding.md R91). -/
def rd (r : RegId) : HostOp := .read (regAddr r) 4

/-- The host address of a buffer offset (20_memory.md R61). A sum at or past 2^32 wraps, a point 30_encoding.md R91
leaves open (DESIGN CHOICE; log 22). -/
def bufAddr (b : BufId) (off : Nat) : Word := BitVec.ofNat 32 (bufBase b + off)

/-- `sb BUF[off], v` (30_encoding.md R91; log 23). -/
def sb (b : BufId) (off : Nat) (v : Word) : HostOp := .write (bufAddr b off) 1 v

/-- `sw BUF[off], v` (30_encoding.md R91). -/
def sw (b : BufId) (off : Nat) (v : Word) : HostOp := .write (bufAddr b off) 4 v

/-- `lb BUF[off]` (30_encoding.md R91). -/
def lb (b : BufId) (off : Nat) : HostOp := .read (bufAddr b off) 1

/-- `lw BUF[off]` (30_encoding.md R91). -/
def lw (b : BufId) (off : Nat) : HostOp := .read (bufAddr b off) 4

/-- `cmd MNEMONIC` (30_encoding.md R92). -/
def cmdOp (i : Instr) : HostOp := wr .cmd (encode i)

/-- `run MNEMONIC`: `cmd` then `poll` (30_encoding.md R92). -/
def runOps (i : Instr) : List HostOp := [cmdOp i, .poll]

/-- `fillb BUF, off, n, v` (30_encoding.md R92; log 23). -/
def fillb (b : BufId) (off n : Nat) (v : Word) : List HostOp := (List.range n).map fun i => sb b (off + i) v

/-- `fillw BUF, off, n, v` (30_encoding.md R92). -/
def fillw (b : BufId) (off n : Nat) (v : Word) : List HostOp := (List.range n).map fun i => sw b (off + 4 * i) v

end Sys2Proof.Machine
end

