-- ==== Sys2Proof/Machine/Control.lean ====
section
/-! DEFINITION. The control commands NOP and SRST (43_control.md). -/

namespace Sys2Proof.Machine

/-- The parameter registers at their power-on values (43_control.md R221, 70_reset_and_hazards.md R262). -/
def State.resetRegisters (s : State) : State :=
  { s with width := resetWidth, height := resetHeight, hue := resetHue, sat := resetSat, luma := resetLuma }

/-- The engine idle with nothing latched, DONE, ERR and ERRCODE cleared, HAZ kept (43_control.md R221). -/
def State.toIdle (s : State) : State := { s with status := s.status.cleared, engine := .idle }

/-- NOP (43_control.md R220). -/
def execNop (s : State) : Outcome State := .next s.complete

/-- SRST (43_control.md R221). -/
def execSrst (s : State) : Outcome State := .next s.toIdle.resetRegisters

end Sys2Proof.Machine
end

