-- ==== Sys2Proof/Machine/Float.lean ====
section
/-! DEFINITION. Float arithmetic of the format `FLOAT_FMT` (00_scope.md R8): operands are taken to exact integers,
the result is computed exactly and rounded once, to nearest with ties to even. -/

namespace Sys2Proof.Machine

/-- A float. A finite one is `±mag` units, the unit being the format's least positive number, so that every finite
float of a format is a whole number of units and equal floats are equal data. NaN payloads reach no output
(10_state.md R39) and are not kept. -/
inductive Fl where
  | nan
  | inf (neg : Bool)
  | fin (neg : Bool) (mag : Nat)
deriving DecidableEq, Repr

/-- The exponent bias: 127 in binary32. -/
def fmtBias (f : FloatFmt) : Nat := 2 ^ (f.expBits - 1) - 1

/-- The unit is `2^-unitLog`: `2^-149` in binary32. -/
def unitLog (f : FloatFmt) : Nat := fmtBias f + f.fracBits - 1

/-- The number 1 in units. -/
def oneMag (f : FloatFmt) : Nat := 2 ^ unitLog f

/-- A magnitude that rounds to this many units or more is an infinity: `2^128` in binary32. -/
def overflowMag (f : FloatFmt) : Nat := 2 ^ (fmtBias f + 1 + unitLog f)

/-- The float a bit pattern stands for. A format narrower than 32 bits takes the low bits and ignores the rest, a point
10_state.md R27 leaves open (DESIGN CHOICE; log 20). -/
def ofBits (f : FloatFmt) (w : Word) : Fl :=
  let frac := w.toNat % 2 ^ f.fracBits
  let ex := w.toNat / 2 ^ f.fracBits % 2 ^ f.expBits
  let neg := w.toNat / 2 ^ (f.fracBits + f.expBits) % 2 == 1
  if ex = 2 ^ f.expBits - 1 then (if frac = 0 then .inf neg else .nan)
  else if ex = 0 then .fin neg frac
  else .fin neg ((2 ^ f.fracBits + frac) * 2 ^ (ex - 1))

/-- `num / den` rounded to a whole number, ties to even. -/
def divNearestEven (num den : Nat) : Nat :=
  let q := num / den
  let r := num % den
  if den < 2 * r ∨ (2 * r = den ∧ q % 2 = 1) then q + 1 else q

/-- The magnitude nearest `num / den` units that the format's `fracBits + 1` significant bits can hold. -/
def roundMag (f : FloatFmt) (num den : Nat) : Nat :=
  let drop := Nat.log2 (num / den) - f.fracBits
  divNearestEven num (den * 2 ^ drop) * 2 ^ drop

/-- `±num / den` units as a float of the format, correctly rounded. -/
def roundFl (f : FloatFmt) (neg : Bool) (num den : Nat) : Fl :=
  let mag := roundMag f num den
  if overflowMag f ≤ mag then .inf neg else .fin neg mag

/-- `f32(n)` for a whole number (00_scope.md R8). -/
def ofNatFl (f : FloatFmt) (n : Nat) : Fl := roundFl f false (n * oneMag f) 1

/-- A signed magnitude as an integer. -/
def signed (neg : Bool) (mag : Nat) : Int := if neg then -(mag : Int) else mag

/-- The opposite sign. -/
def fneg : Fl → Fl
  | .nan => .nan
  | .inf s => .inf (!s)
  | .fin s m => .fin (!s) m

/-- `fadd` (00_scope.md R8). An exact zero sum is −0 only when both operands are negative. -/
def fadd (f : FloatFmt) : Fl → Fl → Fl
  | .nan, _ => .nan
  | _, .nan => .nan
  | .inf s, .inf t => if s = t then .inf s else .nan
  | .inf s, .fin _ _ => .inf s
  | .fin _ _, .inf t => .inf t
  | .fin s m, .fin t n =>
    let z := signed s m + signed t n
    if z = 0 then .fin (s && t) 0 else roundFl f (decide (z < 0)) z.natAbs 1

/-- `fmul` (00_scope.md R8). -/
def fmul (f : FloatFmt) : Fl → Fl → Fl
  | .nan, _ => .nan
  | _, .nan => .nan
  | .inf s, .inf t => .inf (s ^^ t)
  | .inf s, .fin t n => if n = 0 then .nan else .inf (s ^^ t)
  | .fin s m, .inf t => if m = 0 then .nan else .inf (s ^^ t)
  | .fin s m, .fin t n => roundFl f (s ^^ t) (m * n) (oneMag f)

/-- `fdiv` (00_scope.md R8). -/
def fdiv (f : FloatFmt) : Fl → Fl → Fl
  | .nan, _ => .nan
  | _, .nan => .nan
  | .inf _, .inf _ => .nan
  | .inf s, .fin t _ => .inf (s ^^ t)
  | .fin s _, .inf t => .fin (s ^^ t) 0
  | .fin s m, .fin t n =>
    if n = 0 then (if m = 0 then .nan else .inf (s ^^ t))
    else roundFl f (s ^^ t) (m * oneMag f) n

/-- `v == 1.0`, exact float equality (41_encoder.md R127). -/
def isOne (f : FloatFmt) (v : Fl) : Bool := v == .fin false (oneMag f)

/-- `v == 0.0`, exact float equality: both zeros are equal to 0.0 (41_encoder.md R127). -/
def isZero : Fl → Bool
  | .fin _ m => m == 0
  | _ => false

/-- `trunc(min(max(t, 0.0), 255.0))`, and nothing for a NaN, whose byte is any value (10_state.md R39). -/
def truncByte (f : FloatFmt) : Fl → Option Byte
  | .nan => none
  | .inf neg => some (if neg then 0 else 255)
  | .fin neg mag => some (BitVec.ofNat 8 (if neg then 0 else min (mag / oneMag f) 255))

/-- `clampByte(v)` (10_state.md R39); `none` is the NaN case, a draw. -/
def clampByte (f : FloatFmt) (v : Fl) : Option Byte := truncByte f (fmul f v (ofNatFl f 255))

/-- `dot(row, (a, b, c))`, left to right (42_decoder.md R169, R170). -/
def dot3 (f : FloatFmt) (m v : Vec3 Fl) : Fl :=
  fadd f (fadd f (fmul f m.x v.x) (fmul f m.y v.y)) (fmul f m.z v.z)

end Sys2Proof.Machine
end

