-- ==== Sys2Proof/Machine/Trig.lean ====
section
/-! DEFINITION. `TRIG`: the float nearest the exact cosine and sine of a float angle (00_scope.md R5,
42_decoder.md R169). The exact value is enclosed in an interval of fixed-point numbers; where both ends round to one
float, that float is the nearest to the exact value. Where they do not, the value is uninterpreted (log 8). -/

namespace Sys2Proof.Machine

/-- Fixed-point numbers below are whole numbers of `2^-trigBits`. -/
def trigBits : Nat := 512

/-- `⌊π/2 · 2^512⌋`. PRESUMED: a mathematical constant, from Machin's formula (log 8). -/
def halfPi : Nat :=
  0x1921fb54442d18469898cc51701b839a252049c1114cf98e804177d4c76273644a29410f31c6809bbdf2a33679a748636605614dbe4be286e9fc26adadaa3848b

/-- A fixed-point number known to lie between `lo` and `hi`. -/
structure Enclosure where
  lo : Int
  hi : Int
deriving DecidableEq, Repr

/-- The terms of the power series used: `(π/4)^112 / 112!` is below `2^-trigBits`. -/
def seriesTerms : Nat := 56

/-- A bound on the truncation of the series: each of `seriesTerms` terms is within 3 units of its exact value. -/
def seriesSlack : Int := 256

/-- `t − t·r²/((k+1)(k+2)) + …`: the alternating series whose term after `t` is `t` times `−r²/((k+1)(k+2))`, by
`fuel` terms. `r2` is `r²`. -/
def alternating (r2 : Int) : (fuel : Nat) → (k : Nat) → (t : Int) → Int
  | 0, _, _ => 0
  | fuel + 1, k, t =>
    t - alternating r2 fuel (k + 2) (t * r2 / 2 ^ trigBits / (((k + 1) * (k + 2) : Nat) : Int))

/-- `r²`. -/
def square (r : Int) : Int := r * r / 2 ^ trigBits

/-- sin r for |r| ≤ π/4, within `seriesSlack`. -/
def sinSeries (r : Int) : Int := alternating (square r) seriesTerms 1 r

/-- cos r for |r| ≤ π/4, within `seriesSlack`. -/
def cosSeries (r : Int) : Int := alternating (square r) seriesTerms 0 (2 ^ trigBits)

/-- The angle `mag` units, less a whole number of quarter turns: the quarter turns, and an enclosure of the rest. -/
def reduceAngle (f : FloatFmt) (mag : Nat) : Nat × Enclosure :=
  let lo := mag * 2 ^ trigBits / oneMag f
  let hi := (mag * 2 ^ trigBits + oneMag f - 1) / oneMag f
  let k := (2 * lo + halfPi) / (2 * halfPi)
  (k, ⟨(lo : Int) - (k * (halfPi + 1) : Nat), (hi : Int) - (k * halfPi : Nat)⟩)

/-- The value at `r.lo` of a function whose slope is at most 1, widened to enclose its values on `r`. -/
def widen (r : Enclosure) (v : Int) : Enclosure :=
  let w := r.hi - r.lo + seriesSlack
  ⟨v - w, v + w⟩

/-- An enclosure of the opposite. -/
def negate (e : Enclosure) : Enclosure := ⟨-e.hi, -e.lo⟩

/-- An enclosure of the sine of `k` quarter turns plus `r`. The cosine is the sine of one more quarter turn. -/
def quarterSin (k : Nat) (r : Enclosure) : Enclosure :=
  match k % 4 with
  | 0 => widen r (sinSeries r.lo)
  | 1 => widen r (cosSeries r.lo)
  | 2 => negate (widen r (sinSeries r.lo))
  | _ => negate (widen r (cosSeries r.lo))

/-- A fixed-point number as a float. -/
def roundFixed (f : FloatFmt) (z : Int) : Fl :=
  roundFl f (decide (z < 0)) (z.natAbs * oneMag f) (2 ^ trigBits)

/-- The float nearest a number between the ends, where the ends settle it. -/
def settle (f : FloatFmt) (e : Enclosure) : Option Fl :=
  if roundFixed f e.lo = roundFixed f e.hi then some (roundFixed f e.lo) else none

/-- The nearest float to the cosine, where the enclosure settles it; NaN for an infinity or a NaN
(92_eei_decisions.md D18). -/
def nearestCos (f : FloatFmt) : Fl → Option Fl
  | .nan => some .nan
  | .inf _ => some .nan
  | .fin _ mag =>
    if mag = 0 then some (.fin false (oneMag f))
    else settle f (quarterSin ((reduceAngle f mag).1 + 1) (reduceAngle f mag).2)

/-- The nearest float to the sine, as `nearestCos`; the sine of a zero is that zero (42_decoder.md R169). -/
def nearestSin (f : FloatFmt) : Fl → Option Fl
  | .nan => some .nan
  | .inf _ => some .nan
  | .fin neg mag =>
    if mag = 0 then some (.fin neg 0)
    else
      let e := quarterSin (reduceAngle f mag).1 (reduceAngle f mag).2
      settle f (if neg then negate e else e)

/-- `TRIG_cos` of the hue register (42_decoder.md R169; log 8). The default rounds to `FLOAT_FMT`; for a format other
than binary32 the spec states no default (DESIGN CHOICE; log 24). -/
def trigCos (c : Config) (hue : Word) : Fl :=
  match c.trig with
  | .nearest => (nearestCos c.floatFmt (ofBits c.floatFmt hue)).getD (ofBits c.floatFmt (Config.freeCos hue))
  | .unstated => ofBits c.floatFmt (Config.freeCos hue)

/-- `TRIG_sin` of the hue register (42_decoder.md R169; log 8). The default rounds to `FLOAT_FMT`, as in `trigCos`
(DESIGN CHOICE; log 24). -/
def trigSin (c : Config) (hue : Word) : Fl :=
  match c.trig with
  | .nearest => (nearestSin c.floatFmt (ofBits c.floatFmt hue)).getD (ofBits c.floatFmt (Config.freeSin hue))
  | .unstated => ofBits c.floatFmt (Config.freeSin hue)

end Sys2Proof.Machine
end

