-- ==== Sys2Proof/Machine/Fir.lean ====
section
/-! DEFINITION. The decoder's FIR weight sets (10_state.md R35, 42_decoder.md R161, R162): as tables, or by the formula
of R161 from `FC`, `N_FIR_A` and `N_FIR_B`. Fixed-point numbers are whole numbers of `2^-trigBits`, as in
Machine/Trig.lean (log 9). -/

namespace Sys2Proof.Machine

/-- The sine of `num/den` quarter turns, within `seriesSlack`. -/
def sinQuarters (num : Int) (den : Nat) : Int :=
  let k := (2 * num + den) / (2 * den : Nat)
  let r := (num - k * den) * halfPi / den
  match (k % 4).toNat with
  | 0 => sinSeries r
  | 1 => cosSeries r
  | 2 => -sinSeries r
  | _ => -cosSeries r

/-- `hann(k) = 0.5 − 0.5·cos(2πk/(n − 1))` (42_decoder.md R161). -/
def hann (n k : Nat) : Int := (2 ^ trigBits - sinQuarters ((4 * k + (n - 1) : Nat) : Int) (n - 1)) / 2

/-- `sinc(t) = sin(πt)/(πt)`, `sinc(0) = 1`, at `t = num/den` (42_decoder.md R161). -/
def sinc (num : Int) (den : Nat) : Int :=
  if num = 0 then 2 ^ trigBits else sinQuarters (2 * num) den * 2 ^ trigBits * den / (2 * (halfPi : Int) * num)

/-- The numerator of `2·FC·(k − c)` over `FC`'s denominator, `c = (n − 1)/2` (42_decoder.md R161). -/
def sincArg (n fcNum k : Nat) : Int := fcNum * (2 * (k : Int) - ((n : Int) - 1))

/-- The window or the sinc is exactly 0 at `k`. -/
def firZero (n fcNum fcDen k : Nat) : Bool :=
  k == 0 || k + 1 == n || (sincArg n fcNum k != 0 && sincArg n fcNum k % fcDen == 0)

/-- `raw[k] = sinc(2·FC·(k − c)) · 2·FC · hann(k)` (42_decoder.md R161). -/
def firRaw (n fcNum fcDen k : Nat) : Int :=
  if firZero n fcNum fcDen k then 0
  else sinc (sincArg n fcNum k) fcDen * hann n k / 2 ^ trigBits * (2 * fcNum) / fcDen

/-- A bound on the error of a normalised weight where `firDegenerate` is false: a raw weight is within 2^26 units of its
exact value. -/
def firSlack : Int := 2 ^ 96

/-- The sum is too small, the set too large, or the cutoff too far from a common fraction for `firSlack` to hold. -/
def firDegenerate (n fcNum fcDen : Nat) (sum : Int) : Bool :=
  decide (2 ^ 16 < n) || decide (2 ^ 16 < fcDen) || decide (fcDen < fcNum) || decide (sum < 2 ^ (trigBits - 16))

/-- `FIR[k] = f32(raw[k] / Σ raw)`, rounded once (42_decoder.md R161); uninterpreted where the enclosure does not settle
the nearest float (log 9). -/
def firWeight (f : FloatFmt) (n fcNum fcDen : Nat) (sum : Int) (k : Nat) : Fl :=
  if firDegenerate n fcNum fcDen sum then ofBits f (Config.freeFir n k)
  else if firZero n fcNum fcDen k then .fin false 0
  else
    let v := firRaw n fcNum fcDen k * 2 ^ trigBits / sum
    (settle f ⟨v - firSlack, v + firSlack⟩).getD (ofBits f (Config.freeFir n k))

/-- The `n` weights of the formula with cutoff `fcNum/fcDen` cycles a sample. -/
def firFormula (f : FloatFmt) (n fcNum fcDen : Nat) : List Fl :=
  let sum := ((List.range n).map (firRaw n fcNum fcDen)).sum
  (List.range n).map (firWeight f n fcNum fcDen sum)

/-- FIR30, the accurate method's weights (10_state.md R35). -/
def firA (c : Config) : List Fl :=
  match c.fir with
  | .given a _ => a.map (ofBits c.floatFmt)
  | .formula fcNum fcDen nA _ => firFormula c.floatFmt nA fcNum fcDen

/-- FIR15, the second weight set, which no command reads (10_state.md R35, 91_not_in_source.md N13). -/
def firB (c : Config) : List Fl :=
  match c.fir with
  | .given _ b => b.map (ofBits c.floatFmt)
  | .formula fcNum fcDen _ nB => firFormula c.floatFmt nB fcNum fcDen

end Sys2Proof.Machine
end

