-- ==== Sys2Proof/Machine/Decoder.lean ====
section
/-! DEFINITION. The NTSC decoder, the six DEC commands (42_decoder.md). -/

namespace Sys2Proof.Machine

/-- The COMP byte the sampler takes for column c and row r of a 2W×H raster, both clamped to the nearest valid one
(42_decoder.md R164). -/
def sampleByte (comp : Memory) (w h : Nat) (c r : Int) : Option Byte :=
  comp.read (cellAt (2 * w) (clampTo (2 * w) c) (clampTo h r))

/-- A byte as a sample in [0, 1]: `fdiv(f32(b), 255.0)` (42_decoder.md R164). -/
def sampleFl (f : FloatFmt) (b : Byte) : Fl := fdiv f (ofNatFl f b.toNat) (ofNatFl f 255)

/-- `S(c, r)` (42_decoder.md R164), if the byte is written. -/
def sampleAt (f : FloatFmt) (comp : Memory) (w h : Nat) (c r : Int) : Option Fl :=
  (sampleByte comp w h c r).map (sampleFl f)

/-- `phaseIndex(s, x)` (42_decoder.md R166). -/
def phaseIndex (r : PhaseRef) (s x : Int) : Fin 8 :=
  match r with
  | .absolute => Fin.ofNat 8 ((s + 4) % 8).toNat
  | .windowRelative => Fin.ofNat 8 (((s - 2 * x) + 4) % 8).toNat

/-- Add a weighted sample to the sums of Y, I and Q (42_decoder.md R167, R168). -/
def accumulate (c : Config) (acc : Vec3 Fl) (v : Fl) (m : Fin 8) : Vec3 Fl :=
  let f := c.floatFmt
  ⟨fadd f acc.x v,
   fadd f acc.y (fmul f v (ofBits f c.phase[m].1)),
   fadd f acc.z (fmul f v (ofBits f c.phase[m].2))⟩

/-- The three sums at the start: 0.0. -/
def zeroYiq : Vec3 Fl := ⟨.fin false 0, .fin false 0, .fin false 0⟩

/-- One sample of the fast window (42_decoder.md R167). -/
def fastTap (c : Config) (comp : Memory) (w h x y : Nat) (acc : Vec3 Fl) (j : Nat) : Option (Vec3 Fl) :=
  let s : Int := 2 * x + j + c.fastOffset
  (sampleAt c.floatFmt comp w h s y).map fun v => accumulate c acc v (phaseIndex c.phaseRef s x)

/-- `fastYIQ(x, y)`, if every sample it reads is written (42_decoder.md R167). -/
def fastYiq (c : Config) (comp : Memory) (w h x y : Nat) : Option (Vec3 Fl) := do
  let t ← (List.range c.lit.fastN).foldlM (fastTap c comp w h x y) zeroYiq
  let n := ofNatFl c.floatFmt c.lit.fastN
  return ⟨fdiv c.floatFmt t.x n, fdiv c.floatFmt t.y n, fdiv c.floatFmt t.z n⟩

/-- One tap of the accurate filter; `tap` is its number and its weight (42_decoder.md R168). -/
def accTap (c : Config) (comp : Memory) (w h x y : Nat) (acc : Vec3 Fl) (tap : Fl × Nat) : Option (Vec3 Fl) :=
  let s : Int := 2 * x + c.accOffset + c.accStride * tap.2
  (sampleAt c.floatFmt comp w h s y).map fun v =>
    accumulate c acc (fmul c.floatFmt v tap.1) (phaseIndex c.phaseRef s x)

/-- `accYIQ(x, y)`, if every sample it reads is written (42_decoder.md R168). -/
def accYiq (c : Config) (comp : Memory) (w h x y : Nat) : Option (Vec3 Fl) :=
  (firA c).zipIdx.foldlM (accTap c comp w h x y) zeroYiq

/-- The raw triple of a method (42_decoder.md R160). -/
def rawYiq (c : Config) (m : Method) (comp : Memory) (w h x y : Nat) : Option (Vec3 Fl) :=
  match m with
  | .fast => fastYiq c comp w h x y
  | .accurate => accYiq c comp w h x y

/-- The adjustment matrix of the latched HUE, SAT and LUMA, by rows (42_decoder.md R169). -/
def adjustMatrix (c : Config) (l : Latch) : Vec3 (Vec3 Fl) :=
  let f := c.floatFmt
  let co := trigCos c l.hue
  let si := trigSin c l.hue
  let s := ofBits f l.sat
  let zero : Fl := .fin false 0
  ⟨⟨ofBits f l.luma, zero, zero⟩,
   ⟨zero, fmul f s co, fneg si⟩,
   ⟨zero, si, fmul f s co⟩⟩

/-- A matrix times a column vector (42_decoder.md R169). -/
def mulMatrix (f : FloatFmt) (m : Vec3 (Vec3 Fl)) (v : Vec3 Fl) : Vec3 Fl :=
  ⟨dot3 f m.x v, dot3 f m.y v, dot3 f m.z v⟩

/-- `adjust(Y, I, Q)` (42_decoder.md R169). -/
def adjust (c : Config) (l : Latch) (t : Vec3 Fl) : Vec3 Fl := mulMatrix c.floatFmt (adjustMatrix c l) t

/-- YIQ to RGB (42_decoder.md R170). -/
def yiqToRgb (c : Config) (t : Vec3 Fl) : Vec3 Fl :=
  let row := fun (r : Vec3 Word) => (⟨ofBits c.floatFmt r.x, ofBits c.floatFmt r.y, ofBits c.floatFmt r.z⟩ : Vec3 Fl)
  mulMatrix c.floatFmt ⟨row c.yiq2rgb.x, row c.yiq2rgb.y, row c.yiq2rgb.z⟩ t

/-- One channel of the Chroma mode, by `CHROMA_DOMAIN` (42_decoder.md R173). -/
def chromaByte (c : Config) (v : Fl) : Option Byte :=
  let f := c.floatFmt
  let gain := ofBits f c.lit.chromaGain
  let bias := ofBits f c.lit.chromaBias
  match c.chroma with
  | .normalised => clampByte f (fadd f (fmul f v gain) bias)
  | .byte => truncByte f (fadd f (fmul f (fmul f v (ofNatFl f 255)) gain) bias)

/-- R, G and B of an output pixel from its raw triple; `none` where a channel is a draw
(42_decoder.md R171, R172, R173). -/
def modeOut (c : Config) (l : Latch) (m : Mode) (t : Vec3 Fl) : Vec3 (Option Byte) :=
  match m with
  | .rgb =>
    let rgb := yiqToRgb c (adjust c l t)
    ⟨clampByte c.floatFmt rgb.x, clampByte c.floatFmt rgb.y, clampByte c.floatFmt rgb.z⟩
  | .luma => ⟨clampByte c.floatFmt t.x, clampByte c.floatFmt t.x, clampByte c.floatFmt t.x⟩
  | .chroma => ⟨chromaByte c t.y, chromaByte c t.z, some 0⟩

/-- R, G and B where a sample the pixel reads is unwritten: every channel computed from it is a draw, the forced blue
of the Chroma mode is not (60_exceptions.md R240, 42_decoder.md R173; log 16). -/
def modeUninit : Mode → Vec3 (Option Byte)
  | .rgb => ⟨none, none, none⟩
  | .luma => ⟨none, none, none⟩
  | .chroma => ⟨none, none, some 0⟩

/-- R, G and B of output pixel (x, y). -/
def pixelOut (c : Config) (l : Latch) (me : Method) (mo : Mode) (comp : Memory) (w h x y : Nat) :
    Vec3 (Option Byte) :=
  match rawYiq c me comp w h x y with
  | some t => modeOut c l mo t
  | none => modeUninit mo

/-- The four OUT bytes of pixel `k`: R, G, B and the opaque alpha (42_decoder.md R174, R176). -/
def pixelBytes (draws k : Nat) (p : Vec3 (Option Byte)) : List Byte :=
  [p.x.getD (drawAt draws (4 * k)), p.y.getD (drawAt draws (4 * k + 1)),
    p.z.getD (drawAt draws (4 * k + 2)), 255]

/-- Every OUT byte of the raster, in element order (42_decoder.md R176). -/
def decBytes (c : Config) (l : Latch) (me : Method) (mo : Mode) (comp : Memory) (draws w h : Nat) : List Byte :=
  (List.range (w * h)).flatMap fun k =>
    pixelBytes draws k (pixelOut c l me mo comp w h (colOf w k) (rowOf w k))

/-- Some output pixel reads an unwritten COMP byte (42_decoder.md R176). -/
def decUninit (c : Config) (me : Method) (comp : Memory) (w h : Nat) : Bool :=
  (List.range (w * h)).any fun k => (rawYiq c me comp w h (colOf w k) (rowOf w k)).isNone

/-- The frame of the six DEC commands (42_decoder.md R176). -/
def runDec (s : State) (me : Method) (mo : Mode) : Outcome State :=
  withDims s fun w h =>
    .next (s.finish .out (decBytes s.cfg s.latch me mo s.comp s.draws w h) (decUninit s.cfg me s.comp w h))

/-- The accurate commands have no step under ACC_SUBPIXEL_SHIFT ≠ 0 (42_decoder.md R168,
93_implementation_defined.md U10; log 14). -/
def runAcc (s : State) (mo : Mode) : Outcome State :=
  if s.cfg.accSubpixel = 0 then runDec s .accurate mo else .refused .subpixelShift

/-- DEC.FAST.RGB (42_decoder.md R177). -/
def execDecFastRgb (s : State) : Outcome State := runDec s .fast .rgb

/-- DEC.FAST.LUMA (42_decoder.md R178). -/
def execDecFastLuma (s : State) : Outcome State := runDec s .fast .luma

/-- DEC.FAST.CHROMA (42_decoder.md R179). -/
def execDecFastChroma (s : State) : Outcome State := runDec s .fast .chroma

/-- DEC.ACC.RGB (42_decoder.md R180). -/
def execDecAccRgb (s : State) : Outcome State := runAcc s .rgb

/-- DEC.ACC.LUMA (42_decoder.md R181). -/
def execDecAccLuma (s : State) : Outcome State := runAcc s .luma

/-- DEC.ACC.CHROMA (42_decoder.md R182). -/
def execDecAccChroma (s : State) : Outcome State := runAcc s .chroma

end Sys2Proof.Machine
end

