-- ==== Sys2Proof/Machine/Encoder.lean ====
section
/-! DEFINITION. The composite encoder, ENC.I and ENC.F (41_encoder.md). -/

namespace Sys2Proof.Machine

/-- The base hue of an index: `i mod 8` (41_encoder.md R121). -/
def hueOf (i : Byte) : Fin 8 := Fin.ofNat 8 i.toNat

/-- The intensity flag of an index: `i > 7` (41_encoder.md R121). -/
def brightOf (i : Byte) : Bool := decide (7 < i.toNat)

/-- The phase position `2·(x mod 4) + h` (41_encoder.md R121). -/
def phasePos (x h : Nat) : Fin 8 := Fin.ofNat 8 (2 * (x % 4) + h)

/-- The integer path's sample before the final clamp (41_encoder.md R123). -/
def sampleIRaw (c : Config) (hue : Fin 8) (bright : Bool) (p : Fin 8) : Nat :=
  (((waveBCell c hue p).toNat * c.lit.lumaMul) >>> c.lit.lumaShift) + (if bright then c.lit.intensityI else 0)

/-- `sampleI(hue, bright, p)` (41_encoder.md R123). -/
def sampleI (c : Config) (hue : Fin 8) (bright : Bool) (p : Fin 8) : Byte :=
  BitVec.ofNat 8 (min (sampleIRaw c hue bright p) 255)

/-- A WAVE_F cell as a float. -/
def waveAt (c : Config) (hue p : Fin 8) : Fl := ofBits c.floatFmt (waveFCell c hue p)

/-- The base hue at (x, y) of the index raster, if the byte is written. -/
def hueAt (idx : Memory) (w x y : Nat) : Option (Fin 8) := (idx.read (cellAt w x y)).map hueOf

/-- `nextHue`: the hue of the pixel to the right, Black at the last column (41_encoder.md R121). -/
def nextHue (idx : Memory) (w x y : Nat) : Option (Fin 8) :=
  if x + 1 < w then hueAt idx w (x + 1) y else some 0

/-- `prevHue`: the hue of the pixel to the left, Black at x = 0 (41_encoder.md R126). -/
def prevHue (idx : Memory) (w x y : Nat) : Option (Fin 8) :=
  if 0 < x then hueAt idx w (x - 1) y else some 0

/-- The next sample: the same hue's next cell at h = 0, the next pixel's hue at h = 1 (41_encoder.md R125). -/
def nextValue (c : Config) (idx : Memory) (w x y h : Nat) (hue : Fin 8) : Option Fl :=
  if h = 0 then some (waveAt c hue (phasePos x h + 1))
  else (nextHue idx w x y).map fun n => waveAt c n (phasePos x h + 1)

/-- The previous sample, by `EDGE_PREV` (41_encoder.md R126). The inner `none` is the reading under which no edge
rises; the outer one, an unwritten neighbour. -/
def prevValue (c : Config) (idx : Memory) (w x y h : Nat) (hue : Fin 8) : Option (Option Fl) :=
  match c.edgePrev with
  | .none => some none
  | .sameHue => some (some (waveAt c hue (phasePos x h - 1)))
  | .neighbour =>
    if h = 0 then (prevHue idx w x y).map fun n => some (waveAt c n (phasePos x h - 1))
    else some (some (waveAt c hue (phasePos x h - 1)))

/-- The edge condition, by the grouping in force (41_encoder.md R127, 93_implementation_defined.md U8). -/
def edgeMarked (g : EdgeGroup) (rising falling flag : Bool) : Bool :=
  match g with
  | .flagged => (rising || falling) && flag
  | .fallingOnly => rising || (falling && flag)

/-- Whether a sample is *marked*, given its own, previous and next values (41_encoder.md R127). -/
def markedBy (c : Config) (hue p : Fin 8) (prev : Option Fl) (next : Fl) : Bool :=
  let top := isOne c.floatFmt (waveAt c hue p)
  edgeMarked c.edgeGroup (top && (prev.map isZero).getD false) (top && isZero next) (edgeCell c hue p)

/-- The float path's sample before the byte conversion (41_encoder.md R128). -/
def sampleFValue (c : Config) (hue : Fin 8) (bright : Bool) (p : Fin 8) (marked : Bool) : Fl :=
  let f := c.floatFmt
  let v := waveAt c hue p
  let v := if marked then fmul f v (ofBits f c.lit.edgeAtten) else v
  let v := fmul f v (ofBits f c.lit.lumaAtten)
  if bright then fadd f v (ofBits f c.lit.intensityF) else v

/-- `sampleF(hue, bright, p, marked)` (41_encoder.md R128); `none` where the byte is a draw (10_state.md R39). -/
def sampleF (c : Config) (hue : Fin 8) (bright : Bool) (p : Fin 8) (marked : Bool) : Option Byte :=
  clampByte c.floatFmt (sampleFValue c hue bright p marked)

/-- The integer path's sample of half-dot `h` of pixel (x, y), if the index is written (41_encoder.md R131). -/
def encIAt (c : Config) (idx : Memory) (w x y h : Nat) : Option Byte :=
  (idx.read (cellAt w x y)).map fun i => sampleI c (hueOf i) (brightOf i) (phasePos x h)

/-- The float path's sample of half-dot `h` of pixel (x, y), if the indices it looks up are written
(41_encoder.md R132). -/
def encFAt (c : Config) (idx : Memory) (w x y h : Nat) : Option Byte := do
  let i ← idx.read (cellAt w x y)
  let next ← nextValue c idx w x y h (hueOf i)
  let prev ← prevValue c idx w x y h (hueOf i)
  sampleF c (hueOf i) (brightOf i) (phasePos x h) (markedBy c (hueOf i) (phasePos x h) prev next)

/-- Every COMP byte of the raster, in element order: element `o` is half-dot `o mod 2` of pixel `o / 2` of the row
(00_scope.md R10). A byte with no value is a draw (60_exceptions.md R240). -/
def encBytes (at_ : Nat → Nat → Nat → Option Byte) (draws w n : Nat) : List Byte :=
  (List.range n).map fun o =>
    (at_ (colOf (2 * w) o / 2) (rowOf (2 * w) o) (o % 2)).getD (drawAt draws o)

/-- Some written IDX byte of the region is above 15 (60_exceptions.md R235). -/
def indexBad (idx : Memory) (n : Nat) : Bool :=
  (List.range n).any fun k => ((idx.read k).map fun b => decide (15 < b.toNat)).getD false

/-- Some IDX byte of the region is unwritten; the index check reads every one (41_encoder.md R129). -/
def indexUninit (idx : Memory) (n : Nat) : Bool := (List.range n).any fun k => (idx.read k).isNone

/-- The frame of both ENC commands: the dimension check, the index check, then every sample of the raster
(41_encoder.md R130, 60_exceptions.md R236). `at_` gives the sample of (x, y, h) on rows of `w` pixels. -/
def runEnc (s : State) (at_ : Nat → Nat → Nat → Nat → Option Byte) : Outcome State :=
  withDims s fun w h =>
    if indexBad s.idx (w * h) then .next (s.raiseErr .index)
    else .next (s.finish .comp (encBytes (at_ w) s.draws w (2 * w * h)) (indexUninit s.idx (w * h)))

/-- ENC.I (41_encoder.md R131). -/
def execEncI (s : State) : Outcome State := runEnc s (encIAt s.cfg s.idx)

/-- ENC.F (41_encoder.md R132). -/
def execEncF (s : State) : Outcome State := runEnc s (encFAt s.cfg s.idx)

end Sys2Proof.Machine
end

