-- ==== Sys2Proof/Machine/Quant.lean ====
section
/-! DEFINITION. The palette quantizer, QUANT (40_quantizer.md). -/

namespace Sys2Proof.Machine

/-- The squared distance of one channel, exact (40_quantizer.md R102). -/
def channelDist (a b : Byte) : Int := ((a.toNat : Int) - b.toNat) ^ 2

/-- `d(i)`: the squared Euclidean distance of a colour to a palette entry (40_quantizer.md R102). -/
def paletteDist (pal : Vector (Vec3 Byte) 16) (c : Vec3 Byte) (i : Fin 16) : Int :=
  channelDist c.x pal[i].x + channelDist c.y pal[i].y + channelDist c.z pal[i].z

/-- Keep the new entry only where it is strictly nearer (40_quantizer.md R103). -/
def nearer (d : Fin 16 → Int) (best i : Fin 16) : Fin 16 := if d i < d best then i else best

/-- The scan of the entries after the first, in index order (40_quantizer.md R103). -/
def scanPalette (pal : Vector (Vec3 Byte) 16) (c : Vec3 Byte) : Fin 16 :=
  ((List.finRange 16).drop 1).foldl (nearer (paletteDist pal c)) 0

/-- `quantize(r, g, b)`: the two fast paths, then the scan (40_quantizer.md R101, R103). -/
def quantize (pal : Vector (Vec3 Byte) 16) (c : Vec3 Byte) : Fin 16 :=
  if c = ⟨0, 0, 0⟩ then 0
  else if c = ⟨255, 255, 255⟩ then 15
  else scanPalette pal c

/-- R, G and B of pixel `k` of SRC, if all three are written; A is never read (40_quantizer.md R104). -/
def srcPixel (src : Memory) (k : Nat) : Option (Vec3 Byte) := do
  let r ← src.read (4 * k)
  let g ← src.read (4 * k + 1)
  let b ← src.read (4 * k + 2)
  return ⟨r, g, b⟩

/-- An index as an IDX byte. -/
def indexByte (i : Fin 16) : Byte := BitVec.ofNat 8 i.val

/-- A drawn index: any of 0..15, since QUANT writes no other value (40_quantizer.md R104, 60_exceptions.md R235;
log 10). -/
def drawIndex (base off : Nat) : Byte := drawAt base off &&& 0x0F

/-- The IDX byte QUANT computes for pixel `k`, if the pixel's channels are written. -/
def quantAt (c : Config) (src : Memory) (k : Nat) : Option Byte :=
  (srcPixel src k).map fun p => indexByte (quantize c.palette p)

/-- Every IDX byte of the raster, in element order. -/
def quantBytes (c : Config) (src : Memory) (draws n : Nat) : List Byte :=
  (List.range n).map fun k => (quantAt c src k).getD (drawIndex draws k)

/-- Some pixel of the raster has an unwritten channel (60_exceptions.md R240). -/
def quantUninit (src : Memory) (n : Nat) : Bool := (List.range n).any fun k => (srcPixel src k).isNone

/-- QUANT (40_quantizer.md R104). -/
def execQuant (s : State) : Outcome State :=
  withDims s fun w h =>
    .next (s.finish .idx (quantBytes s.cfg s.src s.draws (w * h)) (quantUninit s.src (w * h)))

end Sys2Proof.Machine
end

