-- ==== Sys2Proof/Machine/Dispatch.lean ====
section
/-! DEFINITION. One arm per command: the command's meaning (30_encoding.md R88). -/

namespace Sys2Proof.Machine

def exec (i : Instr) (s : State) : Host.Outcome State Fault Refusal :=
  match i with
  | .nop => Sys2Proof.Machine.execNop s
  | .quant => Sys2Proof.Machine.execQuant s
  | .encI => Sys2Proof.Machine.execEncI s
  | .encF => Sys2Proof.Machine.execEncF s
  | .decFastRgb => Sys2Proof.Machine.execDecFastRgb s
  | .decFastLuma => Sys2Proof.Machine.execDecFastLuma s
  | .decFastChroma => Sys2Proof.Machine.execDecFastChroma s
  | .decAccRgb => Sys2Proof.Machine.execDecAccRgb s
  | .decAccLuma => Sys2Proof.Machine.execDecAccLuma s
  | .decAccChroma => Sys2Proof.Machine.execDecAccChroma s
  | .srst => Sys2Proof.Machine.execSrst s

end Sys2Proof.Machine
end

