-- ==== Sys2Proof/Machine/Schedule.lean ====
section
/-! DEFINITION. Which agent moves next, what the engine has latched to run, and its move (70_reset_and_hazards.md R270,
30_encoding.md R87; log 2). -/

namespace Sys2Proof.Machine

/-- The agent that moves next: the one `turns` names; when `turns` is used up, the engine while it is BUSY, else the
host. A finite `turns` is the fairness of 70_reset_and_hazards.md R270: a command completes after finitely many steps
(log 2). -/
def State.nextAgent (s : State) : Agent :=
  match s.turns with
  | a :: _ => a
  | [] => if s.busy then .engine else .host

/-- The schedule less the turn that is now taken. -/
def State.popTurn (s : State) : State := { s with turns := s.turns.tail }

/-- What the engine finds when it moves. -/
inductive Fetched where
  /-- Nothing is latched. -/
  | nothing
  /-- The latched word is illegal (30_encoding.md R88). -/
  | illegal (why : Illegal)
  /-- The latched word is this command. -/
  | command (i : Instr)
deriving DecidableEq, Repr

/-- The latched command word, decoded in one piece (30_encoding.md R80, R87). -/
def State.fetched (s : State) : Fetched :=
  match s.engine with
  | .idle => .nothing
  | .busy l =>
    match decode l.word with
    | .ok i => .command i
    | .error e => .illegal e

/-- The engine's move: the latched command, ERR_ILLEGAL for an illegal word (60_exceptions.md R233), or nothing where
nothing is latched (log 13). -/
def engineStep (s : State) : Outcome State :=
  match s.fetched with
  | .nothing => .next s
  | .illegal _ => .next (s.raiseErr .illegal)
  | .command i => exec i s

/-- The state with a command word issued and the engine to move next: what a host write of the word to CMD leaves when
the engine moves at once (10_state.md R23, 70_reset_and_hazards.md R270; log 1). -/
def State.withCommand (s : State) (word : Word) : State := { s.issue word with turns := [] }

end Sys2Proof.Machine
end

