-- ==== Sys2Proof/Machine/Step.lean ====
section
/-! DEFINITION. The machine's step: the host performs one access, or the engine performs its latched command as one
atomic step (20_memory.md R69, R71). -/

namespace Sys2Proof.Machine

/-- One step of the machine: the next agent moves (70_reset_and_hazards.md R270; log 2). -/
def step (s : State) : Host.Outcome State Fault Refusal :=
  match s.nextAgent with
  | .host => hostStep s.popTurn
  | .engine => engineStep s.popTurn

/-- `s` with the command word `w` issued, so that the next step runs it: the block fetches no instruction, and a
command reaches the engine by a host write to CMD (10_state.md R21, R23; log 1). -/
def State.withFetchWord (s : State) (nbits w : Nat) : State := s.withCommand (BitVec.ofNat 32 (w % 2 ^ nbits))

end Sys2Proof.Machine
end

