-- ==== Sys2Proof/Safety.lean ====
section
/-! DEFINITION. What counts as a good state and a safe run. -/

namespace Sys2Proof.Machine

/-- What STATUS may hold: at most one of BUSY, DONE, ERR is 1, ERRCODE is 0 exactly when ERR is 0, and is a code of
60_exceptions.md R232 (10_state.md R24). -/
structure State.StatusInv (s : State) : Prop where
  busy_done : s.busy = true → s.status.done = false
  busy_err  : s.busy = true → s.status.err = false
  done_err  : s.status.done = true → s.status.err = false
  code_iff  : s.status.errCode = 0 ↔ s.status.err = false
  code_le   : s.status.errCode.toNat ≤ 3

/-- Every buffer is in canonical form. -/
structure State.MemInv (s : State) : Prop where
  src  : s.src.wf
  idx  : s.idx.wf
  comp : s.comp.wf
  out  : s.out.wf

/-- No byte is listed at or past a buffer's capacity (10_state.md R40, 20_memory.md R61). -/
def State.CapInv (s : State) : Prop :=
  ∀ b off, capacity s.cfg b ≤ off → (s.buf b).read off = none

/-- The invariant of every reachable state: a configuration the spec allows, canonical buffers inside their
capacities, and a legal STATUS. -/
structure State.Inv (s : State) : Prop where
  cfg    : s.cfg.wellFormed = true
  mem    : s.MemInv
  cap    : s.CapInv
  status : s.StatusInv

/-- The host's program has ended and every issued command has completed (70_reset_and_hazards.md R271). -/
def State.Ended (s : State) : Prop := s.pending = [] ∧ s.busy = false

/-- A host operation that has a step (20_memory.md R62, R64, R65). -/
def opHasStep (c : Config) : HostOp → Prop
  | .read addr n => ∃ t, target c addr n = .ok t
  | .write addr n _ => ∃ t, target c addr n = .ok t
  | .poll => True

/-- The latched dimensions pass the check of 60_exceptions.md R234. -/
abbrev State.DimsLegal (s : State) : Prop :=
  s.latchedW ∈ s.cfg.widthSet ∧ 1 ≤ s.latchedH ∧ s.latchedH ≤ s.cfg.maxH

/-- R, G and B of every pixel of the raster are written. -/
abbrev State.SrcWritten (s : State) : Prop :=
  ∀ k < s.latchedW * s.latchedH, ∀ c < 3, (s.src.read (4 * k + c)).isSome = true

/-- Every index of the raster is written and at most 15. -/
abbrev State.IdxLegal (s : State) : Prop :=
  ∀ k < s.latchedW * s.latchedH, (s.idx.read k).any (fun b => decide (b.toNat ≤ 15)) = true

/-- Every composite sample of the raster is written. -/
abbrev State.CompWritten (s : State) : Prop :=
  ∀ o < 2 * s.latchedW * s.latchedH, (s.comp.read o).isSome = true

/-- What a raster command that completes leaves as it was, and what it leaves otherwise, its destination's first `n`
bytes apart: the registers, the configuration, every other buffer and every byte past the region are unchanged, the
engine is idle with DONE set, and every byte of the region is written. -/
structure State.RasterDone (s t : State) (dst : BufId) (n : Nat) : Prop where
  cfg     : t.cfg = s.cfg
  width   : t.width = s.width
  height  : t.height = s.height
  hue     : t.hue = s.hue
  sat     : t.sat = s.sat
  luma    : t.luma = s.luma
  engine  : t.engine = .idle
  done    : t.status.done = true
  err     : t.status.err = s.status.err
  haz     : t.status.haz = s.status.haz
  errCode : t.status.errCode = s.status.errCode
  others  : ∀ b, b ≠ dst → ∀ off, (t.buf b).read off = (s.buf b).read off
  past    : ∀ off, n ≤ off → (t.buf dst).read off = (s.buf dst).read off
  written : ∀ off, off < n → ((t.buf dst).read off).isSome = true
  pending : t.pending = s.pending
  turns   : t.turns = s.turns
  replies : t.replies = s.replies

/-- No model fault has been recorded (60_exceptions.md R240: a proof obligation is that the fault set stays empty). -/
def State.FaultFree (s : State) : Prop := s.faults = []

/-- The host has kept the busy-window rule (70_reset_and_hazards.md R266). -/
def State.HazardFree (s : State) : Prop := s.status.haz = false

/-- Every state that some number of steps reaches from `s` is free of model faults and hazards. -/
def State.Safe (s : State) : Prop :=
  ∀ n t, Host.Core.run Sys2Proof.core n s = .next t → t.FaultFree ∧ t.HazardFree

end Sys2Proof.Machine
end

