-- ==== Sys2Proof/Certificates/Slice0/Obligations.lean ====
section
/-! DEFINITION. The statements for the provers. Each docstring names the rule of spec/ it formalises; every one with
hypotheses has a witness in Tests/Slice0.lean. `DimsLegal`, `SrcWritten`, `IdxLegal`, `CompWritten`, `RasterDone` and
`Inv` are defined in Safety.lean. -/

open Sys2Proof Sys2Proof.Machine

/-! ### command words -/

/-- 30_encoding.md R88: each command's word is the one the rule's table prints, and the decoder reads it as that
command, through the numbering of the opcode table too. -/
def Obligations.TableWordsDecode : Prop :=
  (Instr.all.map encode = [0x00000000, 0x00000001, 0x00000002, 0x00000012, 0x00000003, 0x00000083, 0x00000103,
    0x00000023, 0x000000A3, 0x00000123, 0x0000000F]) ∧
  (∀ i : Instr, decodeTableWord 32 (encode i).toNat = some i)

/-- 30_encoding.md R87, R88, over every 32-bit word: the decoder reads a word as a command exactly where the word is
that command's. Decoding an encoded command gives it back, and no other word decodes to it. -/
def Obligations.DecodeIsExactlyEncode : Prop :=
  ∀ (w : Word) (i : Instr), decode w = .ok i ↔ w = encode i

/-- 30_encoding.md R81 to R87: a word decodes to a command exactly where its fields pass every check of
`CmdFields.wellFormed`: RSVD zero, an assigned OP, P only in ENC, METHOD and MODE only in DEC and not reserved. -/
def Obligations.LegalWordsAreWellFormedFields : Prop :=
  ∀ w : Word, (∃ i, decode w = .ok i) ↔ (fieldsOf w).wellFormed = true

/-- 60_exceptions.md R233, R231: an illegal word ends with ERR_ILLEGAL and changes nothing else, whatever the registers
and buffers hold. -/
def Obligations.IllegalWordEndsWithErrIllegal : Prop :=
  ∀ (s : State) (l : Latch) (e : Illegal), s.engine = .busy l → decode l.word = .error e → s.nextAgent = .engine →
    step s = .next { s with
      turns := s.turns.tail, engine := .idle,
      status := { done := false, err := true, haz := s.status.haz, errCode := 1 } }

/-! ### the step -/

/-- 10_state.md R42, 20_memory.md R69: when the engine moves, it performs the command its latched word decodes to, as
one step, less the turn that is taken. -/
def Obligations.StepRunsDecodedCommand : Prop :=
  ∀ (s : State) (l : Latch) (i : Instr), s.engine = .busy l → decode l.word = .ok i → s.nextAgent = .engine →
    step s = exec i { s with turns := s.turns.tail }

/-- 10_state.md R23: with the engine idle, a host word write to CMD latches the word and the five registers, clears
DONE, ERR and ERRCODE, keeps HAZ, sets BUSY and changes nothing else. -/
def Obligations.CmdWriteIssuesCommand : Prop :=
  ∀ (s : State) (v : Word) (rest : List HostOp), s.engine = .idle → s.nextAgent = .host →
    s.pending = .write 0x00000000 4 v :: rest →
    step s = .next { s with
      pending := rest, turns := s.turns.tail,
      status := { done := false, err := false, haz := s.status.haz, errCode := 0 },
      engine := .busy { word := v, width := s.width, height := s.height, hue := s.hue, sat := s.sat, luma := s.luma } }

/-- 70_reset_and_hazards.md R270 and log 2 (the model's form of the rule's fairness): while a command runs and the
host's program holds no refused access, the engine is idle again within one step more than the schedule names. -/
def Obligations.IssuedCommandCompletes : Prop :=
  ∀ s : State, s.busy = true → s.cfg.accSubpixel = 0 → (∀ op ∈ s.pending, opHasStep s.cfg op) →
    ∃ k t, k ≤ s.turns.length + 1 ∧ Host.Core.run Sys2Proof.core k s = .next t ∧ t.busy = false

/-- 10_state.md R24: a command the engine performs, from a STATUS the rule allows, ends with exactly one of DONE and ERR
set and BUSY clear; after SRST all three are 0. -/
def Obligations.CommandEndsDoneOrErr : Prop :=
  ∀ (s t : State) (i : Instr), s.StatusInv → s.busy = true → exec i s = .next t →
    t.busy = false ∧ (i ≠ .srst → t.status.done = !t.status.err) ∧
    (i = .srst → t.status.done = false ∧ t.status.err = false)

/-! ### the invariant -/

/-- 10_state.md R44, R24, R40 (with the model's configuration of log 5 and log 6): the reset state has the invariant. -/
def Obligations.ResetHasInv : Prop := State.reset.Inv

/-- 10_state.md R24, R40, 20_memory.md R61: from every state with the invariant, every step that has a next state gives
one with it: the configuration stays allowed, every buffer keeps its canonical form and lists no byte past its capacity,
at most one of BUSY, DONE and ERR is 1, and ERRCODE is 0 exactly when ERR is. -/
def Obligations.StepKeepsInv : Prop :=
  ∀ s t : State, s.Inv → step s = .next t → t.Inv

/-- 10_state.md R41: a byte, once written, never becomes unwritten again, whatever step is taken. -/
def Obligations.WrittenBytesStayWritten : Prop :=
  ∀ (s t : State) (b : BufId) (off : Nat), step s = .next t → ((s.buf b).read off).isSome = true →
    ((t.buf b).read off).isSome = true

/-- 10_state.md R37: no run changes the configuration, which holds every constant table of R30 to R36 (the hardware's
waveform and edge tables are constants outside the state, log 6). -/
def Obligations.ConstantTablesNeverChange : Prop :=
  ∀ (n : Nat) (s t : State), Host.Core.run Sys2Proof.core n s = .next t → t.cfg = s.cfg

/-- 60_exceptions.md R240: a model fault, once recorded, is never cleared. -/
def Obligations.FaultSetNeverShrinks : Prop :=
  ∀ (s t : State) (f : Fault), step s = .next t → f ∈ s.faults → f ∈ t.faults

/-- 60_exceptions.md R238: HAZ is set only in the busy window, with BUSY, DONE, ERR, ERRCODE and the running command
unchanged, and no step clears it, SRST included. -/
def Obligations.HazIsStickyAndHarmless : Prop :=
  ∀ s t : State, step s = .next t →
    (s.status.haz = true → t.status.haz = true) ∧
    (s.status.haz = false → t.status.haz = true → s.busy = true ∧ t.engine = s.engine ∧
      t.status.done = s.status.done ∧ t.status.err = s.status.err ∧ t.status.errCode = s.status.errCode)

/-- 10_state.md R23, R42, 70_reset_and_hazards.md R266: the engine's phase and latches change only so: a host word write
to CMD makes an idle engine busy, and a busy engine stays as it is or ends its command. -/
def Obligations.EngineChangesOnlyByIssueOrCompletion : Prop :=
  ∀ s t : State, step s = .next t →
    (s.busy = true → t.engine = s.engine ∨ t.engine = .idle) ∧
    (s.busy = false → t.busy = true →
      s.nextAgent = .host ∧ ∃ v rest, s.pending = .write 0x00000000 4 v :: rest)

/-! ### reset, control commands, STATUS -/

/-- 10_state.md R44, 70_reset_and_hazards.md R261: what the host sees of the registers after power-on reset, and that
every buffer byte is unwritten, the engine idle and the fault set empty. -/
def Obligations.ResetValues : Prop :=
  (([RegId.cmd, .status, .width, .height, .hue, .sat, .luma, .reserved].map State.reset.readReg) =
    [0x00000000, 0x00000000, 0x00000280, 0x00000000, 0x00000000, 0x3F800000, 0x3F800000, 0x00000000]) ∧
  (∀ b off, (State.reset.buf b).read off = none) ∧
  State.reset.engine = .idle ∧ State.reset.faults = []

/-- 10_state.md R26, 60_exceptions.md R234: after reset HEIGHT is 0, so a raster command issued first ends with ERR_DIM
(STATUS 0x24); NOP leaves 0x2 and SRST 0x0. -/
def Obligations.FirstCommandAfterReset : Prop :=
  ∀ i : Instr, ∃ t, step (State.reset.withFetchWord 32 (encode i).toNat) = .next t ∧
    t.statusWord = (if i = .nop then 0x00000002 else if i = .srst then 0x00000000 else 0x00000024)

/-- 10_state.md R24: the places of STATUS's fields as the host reads them. -/
def Obligations.StatusWordLayout : Prop :=
  ∀ s : State, s.statusWord.getLsbD 0 = s.busy ∧ s.statusWord.getLsbD 1 = s.status.done ∧
    s.statusWord.getLsbD 2 = s.status.err ∧ s.statusWord.getLsbD 3 = s.status.haz ∧
    s.statusWord.extractLsb' 4 4 = s.status.errCode ∧ s.statusWord.extractLsb' 8 24 = 0

/-- 43_control.md R220: NOP clears BUSY and sets DONE, in every state, and changes nothing else. -/
def Obligations.NopCompletes : Prop :=
  ∀ s : State, exec .nop s = .next { s with engine := .idle, status := { s.status with done := true } }

/-- 70_reset_and_hazards.md R262, 43_control.md R221: SRST clears BUSY, DONE, ERR and ERRCODE, keeps HAZ, restores the
five registers and changes nothing else, in every state; written while BUSY it is discarded and sets HAZ. -/
def Obligations.SrstRestoresRegisters : Prop :=
  (∀ s : State, exec .srst s = .next { s with
    engine := .idle, status := { done := false, err := false, haz := s.status.haz, errCode := 0 },
    width := 640, height := 0, hue := 0x00000000, sat := 0x3F800000, luma := 0x3F800000 }) ∧
  (∀ (s : State) (rest : List HostOp), s.busy = true → s.nextAgent = .host →
    s.pending = .write 0x00000000 4 (encode .srst) :: rest →
    step s = .next { s with
      turns := s.turns.tail, pending := rest, status := { s.status with haz := true } })

/-! ### errors of the raster commands -/

/-- 60_exceptions.md R234, R236: with illegal latched dimensions every raster command ends with ERR_DIM and changes
nothing else, whatever the buffers hold; the accurate decoder too, where it is not refused (log 14). -/
def Obligations.IllegalDimsEndWithErrDim : Prop :=
  ∀ (s : State) (i : Instr), i ≠ .nop → i ≠ .srst → (∀ mo, i = decOf .accurate mo → s.cfg.accSubpixel = 0) → ¬ s.DimsLegal →
    exec i s = .next { s with
      engine := .idle, status := { done := false, err := true, haz := s.status.haz, errCode := 2 } }

/-- 60_exceptions.md R235, R236, 41_encoder.md R129: with legal dimensions, an index above 15 anywhere in the region ends
both encoder commands with ERR_INDEX and changes nothing else, unwritten bytes elsewhere notwithstanding. -/
def Obligations.IndexAbove15EndsWithErrIndex : Prop :=
  ∀ (s : State) (i : Instr) (k : Nat) (b : Byte), i = .encI ∨ i = .encF → s.DimsLegal →
    k < s.latchedW * s.latchedH → s.idx.read k = some b → 15 < b.toNat →
    exec i s = .next { s with
      engine := .idle, status := { done := false, err := true, haz := s.status.haz, errCode := 3 } }

/-- 42_decoder.md R168, 93_implementation_defined.md U10 (log 14): under a sub-pixel shift the three accurate commands
have no step, and only they. -/
def Obligations.SubpixelShiftRefusesAccurateOnly : Prop :=
  ∀ (s : State) (i : Instr), s.cfg.accSubpixel ≠ 0 →
    (exec i s = .refused .subpixelShift ↔ i = .decAccRgb ∨ i = .decAccLuma ∨ i = .decAccChroma)

/-! ### the quantizer -/

/-- 40_quantizer.md R101: black and white take the fast paths, whatever the palette holds. -/
def Obligations.QuantizeFastPaths : Prop :=
  ∀ pal : Vector (Vec3 Byte) 16, quantize pal ⟨0, 0, 0⟩ = 0 ∧ quantize pal ⟨255, 255, 255⟩ = 15

/-- 40_quantizer.md R103: away from the fast paths the result is the least index among those of minimal distance. -/
def Obligations.QuantizeIsLeastNearest : Prop :=
  ∀ (pal : Vector (Vec3 Byte) 16) (c : Vec3 Byte), c ≠ ⟨0, 0, 0⟩ → c ≠ ⟨255, 255, 255⟩ →
    ∀ j : Fin 16, paletteDist pal c (quantize pal c) ≤ paletteDist pal c j ∧
      (j < quantize pal c → paletteDist pal c (quantize pal c) < paletteDist pal c j)

/-- 40_quantizer.md R102: the distance is the squared Euclidean one, and lies in 0..195075. -/
def Obligations.PaletteDistanceRange : Prop :=
  ∀ (pal : Vector (Vec3 Byte) 16) (c : Vec3 Byte) (i : Fin 16),
    paletteDist pal c i = ((c.x.toNat : Int) - pal[i].x.toNat) ^ 2 + ((c.y.toNat : Int) - pal[i].y.toNat) ^ 2 +
      ((c.z.toNat : Int) - pal[i].z.toNat) ^ 2 ∧
    0 ≤ paletteDist pal c i ∧ paletteDist pal c i ≤ 195075

/-- 40_quantizer.md R104: QUANT completes with the index of every pixel in IDX, for every raster with legal dimensions
and written channels; alpha bytes may be unwritten. -/
def Obligations.QuantWritesIndices : Prop :=
  ∀ s : State, s.DimsLegal → s.SrcWritten → ∃ t, exec .quant s = .next t ∧
    s.RasterDone t .idx (s.latchedW * s.latchedH) ∧ t.faults = s.faults ∧
    ∀ k < s.latchedW * s.latchedH, ∀ r g b, s.src.read (4 * k) = some r → s.src.read (4 * k + 1) = some g →
      s.src.read (4 * k + 2) = some b →
      t.idx.read k = some (BitVec.ofNat 8 (quantize s.cfg.palette ⟨r, g, b⟩).val)

/-- 40_quantizer.md R104, R105 (c): the index of a pixel depends on that pixel's R, G and B alone: two SRC contents
that agree on them give the same index, whatever alpha and the other pixels hold, the two runs taking the same free
values (log 4). -/
def Obligations.QuantReadsOnlyOwnRgb : Prop :=
  ∀ (s : State) (m : Memory) (k : Nat) (t u : State), s.DimsLegal → k < s.latchedW * s.latchedH →
    (∀ c < 3, s.src.read (4 * k + c) = m.read (4 * k + c)) →
    exec .quant s = .next t → exec .quant { s with src := m } = .next u → t.idx.read k = u.idx.read k

/-! ### the encoder -/

/-- 41_encoder.md R124: with the source's constants, the scaled cell is at most 191, the sum at most 255 so that the
final clamp changes nothing, and a cell of 255 with the intensity bit gives 255 exactly. -/
def Obligations.IntegerClampIsVacuous : Prop :=
  (∀ v : Nat, v ≤ 255 → (v * 768) >>> 10 ≤ 191) ∧
  (∀ (c : Config) (hue : Fin 8) (bright : Bool) (p : Fin 8), c.lit = sourceLiterals →
    sampleIRaw c hue bright p ≤ 255 ∧ (sampleI c hue bright p).toNat = sampleIRaw c hue bright p ∧
    (waveBCell c hue p = 255 → bright = true → sampleI c hue bright p = 255))

/-- 41_encoder.md R131, R123: ENC.I completes with the rule's formula in every COMP byte, for every raster with legal
dimensions and legal indices and every value of the literals (768, 10 and 64 in the source, 93_implementation_defined.md
U2). -/
def Obligations.EncIWritesSamples : Prop :=
  ∀ s : State, s.DimsLegal → s.IdxLegal → ∃ t, exec .encI s = .next t ∧
    s.RasterDone t .comp (2 * s.latchedW * s.latchedH) ∧ t.faults = s.faults ∧
    ∀ x < s.latchedW, ∀ y < s.latchedH, ∀ h < 2, ∀ i, s.idx.read (y * s.latchedW + x) = some i →
      t.comp.read (y * (2 * s.latchedW) + (2 * x + h)) = some (BitVec.ofNat 8 (min
        ((((waveBCell s.cfg (Fin.ofNat 8 (i.toNat % 8)) (Fin.ofNat 8 (2 * (x % 4) + h))).toNat *
            s.cfg.lit.lumaMul) >>> s.cfg.lit.lumaShift) +
          (if 7 < i.toNat then s.cfg.lit.intensityI else 0)) 255))

/-- 41_encoder.md R125 to R128, R132: ENC.F completes, for every raster with legal dimensions and legal indices and every
reading of EDGE_PREV. Each sample is the clamped byte of its own cell, times EDGE_ATTEN where it is marked, times
LUMA_ATTEN, plus INTENSITY_GAIN where the index is above 7, in that order; it is marked by the edge condition on its own,
its previous and its next table values (Black beyond the row's ends). A byte with no value (a NaN, which no table of the
spec gives) is any byte. -/
def Obligations.EncFWritesSamples : Prop :=
  ∀ s : State, s.DimsLegal → s.IdxLegal → ∃ t, exec .encF s = .next t ∧
    s.RasterDone t .comp (2 * s.latchedW * s.latchedH) ∧ t.faults = s.faults ∧
    ∀ x < s.latchedW, ∀ y < s.latchedH, ∀ i left right : Byte,
      s.idx.read (y * s.latchedW + x) = some i →
      (if x + 1 < s.latchedW then s.idx.read (y * s.latchedW + (x + 1)) = some right else right = 0) →
      (if 0 < x then s.idx.read (y * s.latchedW + (x - 1)) = some left else left = 0) →
      let p : Fin 8 := Fin.ofNat 8 (2 * (x % 4))
      let f := s.cfg.floatFmt
      let wave := waveAt s.cfg
      let sample := fun (q : Fin 8) (marked : Bool) =>
        let attenuated := if marked then fmul f (wave (hueOf i) q) (ofBits f s.cfg.lit.edgeAtten) else wave (hueOf i) q
        let scaled := fmul f attenuated (ofBits f s.cfg.lit.lumaAtten)
        clampByte f (if 7 < i.toNat then fadd f scaled (ofBits f s.cfg.lit.intensityF) else scaled)
      let prev0 := match s.cfg.edgePrev with
        | .neighbour => some (wave (hueOf left) (p - 1))
        | .sameHue => some (wave (hueOf i) (p - 1))
        | .none => none
      let prev1 := match s.cfg.edgePrev with
        | .neighbour => some (wave (hueOf i) p)
        | .sameHue => some (wave (hueOf i) p)
        | .none => none
      (∀ b, sample p (markedBy s.cfg (hueOf i) p prev0 (wave (hueOf i) (p + 1))) = some b →
        t.comp.read (y * (2 * s.latchedW) + 2 * x) = some b) ∧
      (∀ b, sample (p + 1) (markedBy s.cfg (hueOf i) (p + 1) prev1 (wave (hueOf right) (p + 2))) = some b →
        t.comp.read (y * (2 * s.latchedW) + (2 * x + 1)) = some b)

/-- 41_encoder.md R127, 93_implementation_defined.md U8: which samples are marked, by exact comparison with 1.0 and 0.0
(either zero): under the spec's grouping a rising or falling edge on a flagged cell, under U8's other grouping also a
rising edge on an unflagged one. Where EDGE_PREV gives no previous value, no edge rises. -/
def Obligations.MarkedByEdgeCondition : Prop :=
  ∀ (c : Config) (hue p : Fin 8) (prev : Option Fl) (next : Fl),
    (markedBy c hue p prev next = true ↔
      waveAt c hue p = .fin false (oneMag c.floatFmt) ∧
      match c.edgeGroup with
      | .flagged => ((∃ s, prev = some (.fin s 0)) ∨ ∃ s, next = .fin s 0) ∧ edgeCell c hue p = true
      | .fallingOnly => (∃ s, prev = some (.fin s 0)) ∨ ((∃ s, next = .fin s 0) ∧ edgeCell c hue p = true))

/-- 41_encoder.md R128, R132, R134: in binary32 with the source's constants, a maximal cell gives 191, with the intensity
bit 255, marked 153 and 216; a zero cell gives 0 and, with the intensity bit, 63, marked or not. -/
def Obligations.FloatSampleOfExtremeCells : Prop :=
  ∀ (c : Config) (hue p : Fin 8), c.floatFmt = binary32 → c.lit = sourceLiterals →
    (waveFCell c hue p = 0x3F800000 →
      sampleF c hue false p false = some 191 ∧ sampleF c hue true p false = some 255 ∧
      sampleF c hue false p true = some 153 ∧ sampleF c hue true p true = some 216) ∧
    (waveFCell c hue p = 0x00000000 → ∀ m,
      sampleF c hue false p m = some 0 ∧ sampleF c hue true p m = some 63)

/-- 41_encoder.md R133 (b): the intensity bit never lowers a sample: on the integer path for every table and constant,
on the float path in binary32 with the source's constants for every cell in [0.0, 1.0] (10_state.md R32), where both
samples have a value. -/
def Obligations.IntensityNeverLowersSample : Prop :=
  (∀ (c : Config) (hue p : Fin 8), (sampleI c hue false p).toNat ≤ (sampleI c hue true p).toNat) ∧
  (∀ (c : Config) (hue p : Fin 8) (m : Bool), c.floatFmt = binary32 → c.lit = sourceLiterals →
    (waveFCell c hue p).toNat ≤ 0x3F800000 →
    ∃ a b : Byte, sampleF c hue false p m = some a ∧ sampleF c hue true p m = some b ∧ a.toNat ≤ b.toNat)

/-- 10_state.md R32: in every allowed configuration, the hardware's own tables included, Black's rows are zero, White's
are full, and every WAVE_F cell is at most 1.0. The comparison of unsigned patterns is the model's reading of the rule's
range: it leaves out −0.0 (log 21), reads the hardware's cells above 1.0 as 1.0 (log 6), and takes whole patterns in a
narrower format (log 20). -/
def Obligations.WaveformRowsAsStated : Prop :=
  ∀ (c : Config) (p : Fin 8), c.wellFormed = true →
    waveBCell c 0 p = 0 ∧ waveBCell c 7 p = 255 ∧ waveFCell c 0 p = 0 ∧
    (waveFCell c 7 p).toNat = c.floatFmt.onePattern ∧
    ∀ hue, (waveFCell c hue p).toNat ≤ c.floatFmt.onePattern

/-- 10_state.md R32 (a), (b), 95_test_vectors.md V1, V2: with the source's constants and any allowed tables, a raster all
of index 15 encodes to 255 at every sample and one all of index 0 to 0, on the integer path. -/
def Obligations.UniformRastersEncode : Prop :=
  ∀ (s : State) (i v : Byte), (i = 15 ∧ v = 255) ∨ (i = 0 ∧ v = 0) → s.DimsLegal → s.cfg.wellFormed = true →
    s.cfg.lit = sourceLiterals → (∀ k < s.latchedW * s.latchedH, s.idx.read k = some i) →
    ∃ t, exec .encI s = .next t ∧ ∀ o < 2 * s.latchedW * s.latchedH, t.comp.read o = some v

/-! ### the decoder -/

/-- 42_decoder.md R165: sampling one column outside gives the nearest column's sample, on both sides. -/
def Obligations.BorderSamplesClamp : Prop :=
  ∀ (f : FloatFmt) (comp : Memory) (w h : Nat) (r : Int),
    sampleAt f comp w h (-1) r = sampleAt f comp w h 0 r ∧
    sampleAt f comp w h (2 * (w : Int)) r = sampleAt f comp w h (2 * (w : Int) - 1) r

/-- 42_decoder.md R163: the binary32 sum of each weight set, in index order, is 1 + 2^−23, within 1e-5 of 1. -/
def Obligations.FirSetsSumToOne : Prop :=
  ∀ ws, ws = fir30 ∨ ws = fir15 →
    ws.foldl (fun a w => fadd binary32 a (ofBits binary32 w)) (.fin false 0) = .fin false (2 ^ 149 + 2 ^ 126) ∧
    oneMag binary32 = 2 ^ 149 ∧ 2 ^ 126 * 100000 ≤ 2 ^ 149

/-- 42_decoder.md R161, R162: the formula with FC = 0.125 and 30 and 15 taps gives the printed tables, bit for bit. -/
def Obligations.FirTablesAreTheFormula : Prop :=
  ∀ c : Config, c.floatFmt = binary32 → c.fir = .formula 1 8 30 15 →
    firA c = fir30.map (ofBits binary32) ∧ firB c = fir15.map (ofBits binary32)

/-- 42_decoder.md R167: where the window's eight samples have values `v 0 .. v 7`, the fast triple is the three sums
from 0.0 in window order, each divided by 8.0; the weights are PHASE's at the samples' phase indices. -/
def Obligations.FastTripleIsBoxSum : Prop :=
  ∀ (c : Config) (comp : Memory) (w h x y : Nat) (v : Nat → Fl), c.lit.fastN = 8 →
    (∀ j : Nat, j < 8 → sampleAt c.floatFmt comp w h (2 * (x : Int) + j + c.fastOffset) y = some (v j)) →
    let f := c.floatFmt
    let m := fun j : Nat => phaseIndex c.phaseRef (2 * (x : Int) + j + c.fastOffset) x
    let sum := fun g : Nat → Fl => (List.range 8).foldl (fun a j => fadd f a (g j)) (.fin false 0)
    fastYiq c comp w h x y = some
      ⟨fdiv f (sum v) (ofNatFl f 8),
       fdiv f (sum fun j => fmul f (v j) (ofBits f c.phase[m j].1)) (ofNatFl f 8),
       fdiv f (sum fun j => fmul f (v j) (ofBits f c.phase[m j].2)) (ofNatFl f 8)⟩

/-- 42_decoder.md R168: where the taps' samples have values, the accurate triple is the three sums from 0.0 in tap
order of the samples weighted by FIR30, and for I and Q by PHASE at the samples' phase indices. -/
def Obligations.AccurateTripleIsFirSum : Prop :=
  ∀ (c : Config) (comp : Memory) (w h x y : Nat) (v : Nat → Fl),
    (∀ k : Nat, k < (firA c).length →
      sampleAt c.floatFmt comp w h (2 * (x : Int) + c.accOffset + c.accStride * k) y = some (v k)) →
    let f := c.floatFmt
    let m := fun k : Nat => phaseIndex c.phaseRef (2 * (x : Int) + c.accOffset + c.accStride * k) x
    let u := fun k : Nat => fmul f (v k) ((firA c).getD k (.fin false 0))
    let sum := fun g : Nat → Fl => (List.range (firA c).length).foldl (fun a k => fadd f a (g k)) (.fin false 0)
    accYiq c comp w h x y = some
      ⟨sum u, sum fun k => fmul f (u k) (ofBits f c.phase[m k].1),
       sum fun k => fmul f (u k) (ofBits f c.phase[m k].2)⟩

/-- 42_decoder.md R170, R171, R174, R177, R180: DEC.FAST.RGB and DEC.ACC.RGB complete, for every raster with legal
dimensions and written samples and every HUE, SAT and LUMA, with red, green and blue the clamped bytes of rows 0, 1 and 2
of YIQ2RGB times the adjusted triple, each dot product left to right, where the channel has a byte (a NaN channel is any
byte, R175), and alpha 255. -/
def Obligations.DecRgbWritesPixels : Prop :=
  ∀ (s : State) (me : Method), s.DimsLegal → s.CompWritten → (me = .accurate → s.cfg.accSubpixel = 0) →
    ∃ t, exec (decOf me .rgb) s = .next t ∧ s.RasterDone t .out (4 * s.latchedW * s.latchedH) ∧ t.faults = s.faults ∧
    ∀ x < s.latchedW, ∀ y < s.latchedH, ∃ yiq, rawYiq s.cfg me s.comp s.latchedW s.latchedH x y = some yiq ∧
      let o := 4 * (y * s.latchedW + x)
      let f := s.cfg.floatFmt
      let a := adjust s.cfg s.latch yiq
      let dot := fun row : Vec3 Word =>
        fadd f (fadd f (fmul f (ofBits f row.x) a.x) (fmul f (ofBits f row.y) a.y)) (fmul f (ofBits f row.z) a.z)
      (∀ b, clampByte f (dot s.cfg.yiq2rgb.x) = some b → t.out.read o = some b) ∧
      (∀ b, clampByte f (dot s.cfg.yiq2rgb.y) = some b → t.out.read (o + 1) = some b) ∧
      (∀ b, clampByte f (dot s.cfg.yiq2rgb.z) = some b → t.out.read (o + 2) = some b) ∧
      t.out.read (o + 3) = some 255

/-- 42_decoder.md R172, R174, R178, R181: DEC.FAST.LUMA and DEC.ACC.LUMA complete, for every raster with legal
dimensions and written samples, with the clamped byte of the raw Y in all three channels, and alpha 255. -/
def Obligations.DecLumaWritesPixels : Prop :=
  ∀ (s : State) (me : Method), s.DimsLegal → s.CompWritten → (me = .accurate → s.cfg.accSubpixel = 0) →
    ∃ t, exec (decOf me .luma) s = .next t ∧ s.RasterDone t .out (4 * s.latchedW * s.latchedH) ∧ t.faults = s.faults ∧
    ∀ x < s.latchedW, ∀ y < s.latchedH, ∃ yiq, rawYiq s.cfg me s.comp s.latchedW s.latchedH x y = some yiq ∧
      let o := 4 * (y * s.latchedW + x)
      (∀ b, clampByte s.cfg.floatFmt yiq.x = some b → ∀ c < 3, t.out.read (o + c) = some b) ∧
      t.out.read (o + 3) = some 255

/-- 42_decoder.md R173, R174, R179, R182: DEC.FAST.CHROMA and DEC.ACC.CHROMA complete, for every raster with legal
dimensions and written samples, with the amplified I in red and Q in green, by the reading of CHROMA_DOMAIN in force,
blue 0 and alpha 255. -/
def Obligations.DecChromaWritesPixels : Prop :=
  ∀ (s : State) (me : Method), s.DimsLegal → s.CompWritten → (me = .accurate → s.cfg.accSubpixel = 0) →
    ∃ t, exec (decOf me .chroma) s = .next t ∧ s.RasterDone t .out (4 * s.latchedW * s.latchedH) ∧
    t.faults = s.faults ∧
    ∀ x < s.latchedW, ∀ y < s.latchedH, ∃ yiq, rawYiq s.cfg me s.comp s.latchedW s.latchedH x y = some yiq ∧
      let o := 4 * (y * s.latchedW + x)
      let f := s.cfg.floatFmt
      let amp := fun v => fadd f (fmul f v (ofBits f s.cfg.lit.chromaGain)) (ofBits f s.cfg.lit.chromaBias)
      let byte := fun v => match s.cfg.chroma with
        | .normalised => clampByte f (amp v)
        | .byte => truncByte f (amp (fmul f v (ofNatFl f 255)))
      (∀ b, byte yiq.y = some b → t.out.read o = some b) ∧
      (∀ b, byte yiq.z = some b → t.out.read (o + 1) = some b) ∧
      t.out.read (o + 2) = some 0 ∧ t.out.read (o + 3) = some 255

/-- 42_decoder.md R174: in every mode and method, whatever the parameters hold, every alpha byte is 255. It covers
unwritten COMP bytes too: that the command goes on is the model's choice of the two treatments 60_exceptions.md R240
allows (log 3), and that such a pixel's alpha is kept is the model's choice (log 16). -/
def Obligations.AlphaIsOpaque : Prop :=
  ∀ (s : State) (me : Method) (mo : Mode), s.DimsLegal → (me = .accurate → s.cfg.accSubpixel = 0) →
    ∃ t, exec (decOf me mo) s = .next t ∧ ∀ k < s.latchedW * s.latchedH, t.out.read (4 * k + 3) = some 255

/-- 42_decoder.md R172, R173, R175: the Luma and Chroma modes do not read the latched HUE, SAT and LUMA: two commands
that differ only in them write the same bytes, the two runs taking the same free values (log 4). -/
def Obligations.LumaAndChromaIgnoreParameters : Prop :=
  ∀ (s t u : State) (l : Latch) (hue sat luma : Word) (me : Method) (mo : Mode), mo ≠ .rgb → s.engine = .busy l →
    exec (decOf me mo) s = .next t →
    exec (decOf me mo) { s with engine := .busy { l with hue := hue, sat := sat, luma := luma } } = .next u →
    t.out = u.out

/-- 42_decoder.md R183 (c): with the default windows, the raw triple of pixel (x, y) depends only on row y of COMP, at
columns 2x − 4 .. 2x + 3 (fast) or 2x − 15 .. 2x + 14 (accurate), clamped to the row. -/
def Obligations.TripleDependsOnItsWindow : Prop :=
  ∀ (c : Config) (m n : Memory) (w h x y : Nat), y < h →
    (c.fastOffset = -4 → c.lit.fastN = 8 →
      (∀ j < 8, m.read (y * (2 * w) + min (2 * x + j - 4) (2 * w - 1)) =
        n.read (y * (2 * w) + min (2 * x + j - 4) (2 * w - 1))) →
      fastYiq c m w h x y = fastYiq c n w h x y) ∧
    (c.accOffset = -15 → c.accStride = 1 → (firA c).length = 30 →
      (∀ j < 30, m.read (y * (2 * w) + min (2 * x + j - 15) (2 * w - 1)) =
        n.read (y * (2 * w) + min (2 * x + j - 15) (2 * w - 1))) →
      accYiq c m w h x y = accYiq c n w h x y)

/-- 42_decoder.md R183 (d): in binary32 with the spec's PHASE and FIR30 and the source's constants, an all-zero row gives
Y = I = Q = 0 exactly, by both methods, and with it (0, 0, 0) in the Luma mode and (127, 127, 0) in the Chroma mode. -/
def Obligations.ZeroRowDecodesToBlack : Prop :=
  ∀ (c : Config) (l : Latch) (comp : Memory) (w h x y : Nat) (me : Method), c.floatFmt = binary32 →
    c.phase = phase → c.fir = .given fir30 fir15 → c.lit = sourceLiterals → c.chroma = .normalised → 1 ≤ w → y < h →
    (∀ col < 2 * w, comp.read (y * (2 * w) + col) = some 0) →
    rawYiq c me comp w h x y = some ⟨.fin false 0, .fin false 0, .fin false 0⟩ ∧
    pixelOut c l me .luma comp w h x y = ⟨some 0, some 0, some 0⟩ ∧
    pixelOut c l me .chroma comp w h x y = ⟨some 127, some 127, some 0⟩

/-- 95_test_vectors.md V3, 42_decoder.md R178, R181: in binary32 with the spec's tables, a raster whose samples are all
255 decodes to 255 in every byte of the Luma mode, by both methods. -/
def Obligations.WhiteRasterDecodesWhite : Prop :=
  ∀ (s : State) (me : Method), s.DimsLegal → (me = .accurate → s.cfg.accSubpixel = 0) → s.cfg.floatFmt = binary32 →
    s.cfg.phase = phase → s.cfg.fir = .given fir30 fir15 → s.cfg.lit = sourceLiterals →
    (∀ o < 2 * s.latchedW * s.latchedH, s.comp.read o = some 255) →
    ∃ t, exec (decOf me .luma) s = .next t ∧ ∀ o < 4 * s.latchedW * s.latchedH, t.out.read o = some 255

/-- 42_decoder.md R169, 90_conflicts.md C3: the adjustment is the printed matrix times (Y, I, Q), each row left to right,
SAT scaling the cosine terms only; at HUE = +0.0 with the default TRIG in binary32 the cosine is 1.0 and the sine +0.0. -/
def Obligations.AdjustmentIsPrintedMatrix : Prop :=
  ∀ (c : Config) (l : Latch) (y i q : Fl),
    let f := c.floatFmt
    let zero : Fl := .fin false 0
    let sc := fmul f (ofBits f l.sat) (trigCos c l.hue)
    let n := trigSin c l.hue
    adjust c l ⟨y, i, q⟩ =
      ⟨fadd f (fadd f (fmul f (ofBits f l.luma) y) (fmul f zero i)) (fmul f zero q),
       fadd f (fadd f (fmul f zero y) (fmul f sc i)) (fmul f (fneg n) q),
       fadd f (fadd f (fmul f zero y) (fmul f n i)) (fmul f sc q)⟩ ∧
    (f = binary32 → c.trig = .nearest → l.hue = 0x00000000 →
      trigCos c l.hue = .fin false (2 ^ 149) ∧ n = .fin false 0)

/-! ### reads of unwritten bytes -/

/-- 60_exceptions.md R240, R235, 40_quantizer.md R104: QUANT on legal dimensions completes on any contents of SRC, records
F_UNINIT exactly where some R, G or B byte of the raster is unwritten, and never writes an index above 15. Going on is
the model's choice of the rule's two treatments (log 3); the bound on a drawn index is deduced (log 10). -/
def Obligations.QuantRecordsUninit : Prop :=
  ∀ s : State, s.DimsLegal → ∃ t, exec .quant s = .next t ∧ s.RasterDone t .idx (s.latchedW * s.latchedH) ∧
    (.uninit ∈ t.faults ↔ .uninit ∈ s.faults ∨
      ∃ k < s.latchedW * s.latchedH, ∃ c < 3, s.src.read (4 * k + c) = none) ∧
    ∀ k < s.latchedW * s.latchedH, ∃ b, t.idx.read k = some b ∧ b.toNat ≤ 15

/-- 60_exceptions.md R240, R236, 41_encoder.md R129: an encoder command on legal dimensions with no index above 15
records F_UNINIT exactly where some index of the raster is unwritten, and completes either way, which is the model's
choice of the rule's two treatments (log 3). -/
def Obligations.EncRecordsUninit : Prop :=
  ∀ (s : State) (i : Instr), i = .encI ∨ i = .encF → s.DimsLegal →
    (∀ k < s.latchedW * s.latchedH, ∀ b, s.idx.read k = some b → b.toNat ≤ 15) →
    ∃ t, exec i s = .next t ∧ t.status.done = true ∧
      (.uninit ∈ t.faults ↔ .uninit ∈ s.faults ∨ ∃ k < s.latchedW * s.latchedH, s.idx.read k = none)

/-- 60_exceptions.md R240, 42_decoder.md R176: with the default windows, a DEC command on legal dimensions records
F_UNINIT exactly where some COMP byte of the raster is unwritten, since every one is read, and completes either way,
which is the model's choice of the rule's two treatments (log 3). -/
def Obligations.DecRecordsUninit : Prop :=
  ∀ (s : State) (me : Method) (mo : Mode), s.DimsLegal → (me = .accurate → s.cfg.accSubpixel = 0) → s.cfg.fastOffset = -4 →
    s.cfg.lit.fastN = 8 → s.cfg.accOffset = -15 → s.cfg.accStride = 1 → (firA s.cfg).length = 30 →
    ∃ t, exec (decOf me mo) s = .next t ∧ t.status.done = true ∧
      (.uninit ∈ t.faults ↔ .uninit ∈ s.faults ∨ ∃ o < 2 * s.latchedW * s.latchedH, s.comp.read o = none)

/-! ### the host's accesses -/

/-- 20_memory.md R66, 10_state.md R22, R24 to R29: with the engine idle and the host to move, what a word write at each
register's address but CMD's leaves (CmdWriteIssuesCommand says what a write to CMD does), and what a word read at each
returns: WIDTH and HEIGHT hold bits 15 to 0 and read 0 above them, HUE, SAT and LUMA hold all 32, STATUS and the
reserved addresses ignore a write, CMD and the reserved addresses read 0. Nothing else changes. -/
def Obligations.RegisterWritesStoreWritableBits : Prop :=
  ∀ (s : State) (addr v : Word) (rest : List HostOp), s.engine = .idle → s.nextAgent = .host →
    let s' : State := { s with turns := s.turns.tail, pending := rest }
    (s.pending = .write addr 4 v :: rest →
      (addr = 0x04 → step s = .next s') ∧
      (addr = 0x08 → step s = .next { s' with width := v.extractLsb' 0 16 }) ∧
      (addr = 0x0C → step s = .next { s' with height := v.extractLsb' 0 16 }) ∧
      (addr = 0x10 → step s = .next { s' with hue := v }) ∧
      (addr = 0x14 → step s = .next { s' with sat := v }) ∧
      (addr = 0x18 → step s = .next { s' with luma := v }) ∧
      (0x1C ≤ addr.toNat → addr.toNat ≤ 0x3C → addr.toNat % 4 = 0 → step s = .next s')) ∧
    (s.pending = .read addr 4 :: rest →
      let returns : Word → Prop := fun value => step s = .next { s' with replies := ⟨addr, 4, value⟩ :: s.replies }
      (addr = 0x00 → returns 0) ∧
      (addr = 0x04 → returns ((0 : BitVec 24) ++ s.status.errCode ++ BitVec.ofBool s.status.haz ++
        BitVec.ofBool s.status.err ++ BitVec.ofBool s.status.done ++ (0 : BitVec 1))) ∧
      (addr = 0x08 → returns ((0 : BitVec 16) ++ s.width)) ∧
      (addr = 0x0C → returns ((0 : BitVec 16) ++ s.height)) ∧
      (addr = 0x10 → returns s.hue) ∧ (addr = 0x14 → returns s.sat) ∧ (addr = 0x18 → returns s.luma) ∧
      (0x1C ≤ addr.toNat → addr.toNat ≤ 0x3C → addr.toNat % 4 = 0 → returns 0))

/-- 20_memory.md R63, R66, R67: with the engine idle, a host write to a buffer followed by a read of the same address
and width returns the value written; a word lies with its low byte at the lowest offset; no other byte changes. That a
byte write of a value above 0xFF keeps its low byte is the model's choice (log 23). -/
def Obligations.HostWriteThenReadBack : Prop :=
  ∀ (s : State) (addr v : Word) (n : Nat) (b : BufId) (off : Nat) (rest : List HostOp),
    s.engine = .idle → s.turns = [] → s.pending = .write addr n v :: .read addr n :: rest →
    target s.cfg addr n = .ok (.buf b off) →
    ∃ t, Host.Core.run Sys2Proof.core 2 s = .next t ∧ t.pending = rest ∧
      t.replies = ⟨addr, n, if n = 1 then v &&& 0x000000FF else v⟩ :: s.replies ∧
      (∀ i < n, (t.buf b).read (off + i) = some (v.extractLsb' (8 * i) 8)) ∧
      (∀ a, a < off ∨ off + n ≤ a → (t.buf b).read a = (s.buf b).read a) ∧
      (∀ d, d ≠ b → t.buf d = s.buf d)

/-- 20_memory.md R61, R62, R64, R65, 10_state.md R22, R40: exactly which host accesses have a step, and what each
selects: words at multiples of 4 in the register file select the register of that address, and bytes or 4-aligned words
that lie inside a buffer's capacity select, at address base + offset, that offset of the buffer. The capacities are the
rule's with the parameter W for 640 (log 18). -/
def Obligations.AccessesThatHaveAStep : Prop :=
  ∀ (c : Config) (addr : Word) (n : Nat) (t : Target), c.sizesOk = true →
    (target c addr n = .ok t ↔
      (n = 4 ∧ ∃ r, t = .reg r ∧
        ((r, addr.toNat) ∈ [(RegId.cmd, 0x00), (.status, 0x04), (.width, 0x08), (.height, 0x0C), (.hue, 0x10),
            (.sat, 0x14), (.luma, 0x18)] ∨
          r = .reserved ∧ 0x1C ≤ addr.toNat ∧ addr.toNat ≤ 0x3C ∧ addr.toNat % 4 = 0)) ∨
      ((n = 1 ∨ n = 4 ∧ addr.toNat % 4 = 0) ∧ ∃ b base bytes off,
        (b, base, bytes) ∈ [(BufId.src, 0x00100000, 4 * c.rowPixels * c.maxH),
          (.idx, 0x00200000, c.rowPixels * c.maxH), (.comp, 0x00300000, 2 * c.rowPixels * c.maxH),
          (.out, 0x00400000, 4 * c.rowPixels * c.maxH)] ∧
        t = .buf b off ∧ addr.toNat = base + off ∧ off + n ≤ bytes))

/-- 60_exceptions.md R240, 70_reset_and_hazards.md R266: a host access that has no step is refused, in the busy window
too: there is no next state. -/
def Obligations.RefusedAccessHasNoStep : Prop :=
  ∀ (s : State) (op : HostOp) (rest : List HostOp), s.nextAgent = .host → s.pending = op :: rest →
    ¬ opHasStep s.cfg op → ∃ r, step s = .refused r

/-- 70_reset_and_hazards.md R268, with R266 for every other target: a host write in the busy window sets HAZ and is
discarded; a command word is neither queued nor checked, and the running command, DONE, ERR and ERRCODE stay. -/
def Obligations.BusyWriteIsDiscarded : Prop :=
  ∀ (s : State) (addr v : Word) (n : Nat) (tg : Target) (rest : List HostOp), s.busy = true → s.nextAgent = .host →
    s.pending = .write addr n v :: rest → target s.cfg addr n = .ok tg →
    step s = .next { s with
      turns := s.turns.tail, pending := rest, status := { s.status with haz := true } }

/-- 70_reset_and_hazards.md R266, 93_implementation_defined.md U5: in the busy window a word read of STATUS returns STATUS
and has no other effect; any other read sets HAZ and returns some value; the running command, every register and every
buffer stay. -/
def Obligations.BusyReads : Prop :=
  ∀ (s : State) (addr : Word) (n : Nat) (tg : Target) (rest : List HostOp), s.busy = true → s.nextAgent = .host →
    s.pending = .read addr n :: rest → target s.cfg addr n = .ok tg →
    (tg = .reg .status → step s = .next { s with
      turns := s.turns.tail, pending := rest, replies := ⟨addr, n, s.statusWord⟩ :: s.replies }) ∧
    (tg ≠ .reg .status → ∃ v, step s = .next { s with
      turns := s.turns.tail, pending := rest, status := { s.status with haz := true },
      replies := ⟨addr, n, v⟩ :: s.replies, draws := s.draws + n })

/-- 20_memory.md R70: no raster command reads the buffer it writes: other contents of the destination leave the region
it writes the same, the two runs taking the same free values (log 4). -/
def Obligations.CommandsDoNotReadDestination : Prop :=
  ∀ (s t u : State) (m : Memory) (i : Instr) (dst : BufId) (n : Nat), s.DimsLegal →
    (i = .quant ∧ dst = .idx ∧ n = s.latchedW * s.latchedH) ∨
      ((i = .encI ∨ i = .encF) ∧ dst = .comp ∧ n = 2 * s.latchedW * s.latchedH) ∨
      ((∃ me mo, i = decOf me mo) ∧ dst = .out ∧ n = 4 * s.latchedW * s.latchedH) →
    exec i s = .next t → exec i (s.setBuf dst m) = .next u → t.status = u.status ∧
    (t.status.err = false → ∀ off < n, (t.buf dst).read off = (u.buf dst).read off)
end

