-- ==== Sys2Proof/Laws/Float.lean ====
section
/-! SUPPORT. Rounding to nearest even is monotone, and leaves what it gives as it is (00_scope.md R8). -/

namespace Sys2Proof.Machine

theorem le_divNearestEven (num den : Nat) : num / den ≤ divNearestEven num den := by
  unfold divNearestEven; dsimp only; split <;> omega

theorem divNearestEven_le (num den : Nat) : divNearestEven num den ≤ num / den + 1 := by
  unfold divNearestEven; dsimp only; split <;> omega

theorem divNearestEven_exact {k den : Nat} (h : 0 < den) : divNearestEven (k * den) den = k := by
  have : den ≠ 0 := h.ne'
  simp [divNearestEven, h, this.symm]

/-- The nearest whole number of a larger quotient is not smaller. -/
theorem divNearestEven_mono {a b c d : Nat} (hb : 0 < b) (hd : 0 < d) (h : a * d ≤ c * b) :
    divNearestEven a b ≤ divNearestEven c d := by
  have hq : a / b ≤ c / d := by
    rw [Nat.le_div_iff_mul_le hd]
    refine Nat.le_of_mul_le_mul_right ?_ hb
    calc a / b * d * b = a / b * b * d := by ring
      _ ≤ a * d := Nat.mul_le_mul_right d (Nat.div_mul_le_self a b)
      _ ≤ c * b := h
  rcases hq.lt_or_eq with hlt | heq
  · exact (divNearestEven_le a b).trans (hlt.trans_le (le_divNearestEven c d))
  · have ha := Nat.div_add_mod a b
    have hc := Nat.div_add_mod c d
    have hr : a % b * d ≤ c % d * b := by
      have e : (b * (a / b) + a % b) * d ≤ (d * (c / d) + c % d) * b := by rw [ha, hc]; exact h
      rw [heq] at e
      nlinarith
    unfold divNearestEven
    dsimp only
    rw [heq]
    split
    · rename_i hup
      rw [if_pos]
      rcases hup with hup | ⟨hup, hodd⟩
      · left; nlinarith
      · have : d ≤ 2 * (c % d) := by nlinarith
        rcases this.lt_or_eq with h | h
        · exact .inl h
        · exact .inr ⟨h.symm, hodd⟩
    · split <;> omega

theorem div_mul_pow (num den k : Nat) : num / (den * 2 ^ k) = num / den / 2 ^ k := (Nat.div_div_eq_div_mul _ _ _).symm

/-- A magnitude is below twice the power of two its logarithm names. -/
theorem lt_log2_succ (n : Nat) : n < 2 ^ (Nat.log2 n + 1) := Nat.lt_log2_self

/-- The nearest magnitude of a larger quotient is not smaller. -/
theorem roundMag_mono (f : FloatFmt) {a b c d : Nat} (hb : 0 < b) (hd : 0 < d) (h : a * d ≤ c * b) :
    roundMag f a b ≤ roundMag f c d := by
  have hq : a / b ≤ c / d := by
    rw [Nat.le_div_iff_mul_le hd]
    refine Nat.le_of_mul_le_mul_right ?_ hb
    calc a / b * d * b = a / b * b * d := by ring
      _ ≤ a * d := Nat.mul_le_mul_right d (Nat.div_mul_le_self a b)
      _ ≤ c * b := h
  have hlog : Nat.log2 (a / b) ≤ Nat.log2 (c / d) := by
    by_cases h0 : a / b = 0
    · rw [h0]; simp
    · have hne : c / d ≠ 0 := fun e => h0 (Nat.le_zero.1 (e ▸ hq))
      exact (Nat.le_log2 hne).2 ((Nat.log2_self_le h0).trans hq)
  unfold roundMag
  dsimp only
  generalize hk : Nat.log2 (a / b) - f.fracBits = k
  generalize hl : Nat.log2 (c / d) - f.fracBits = l
  have hkl : k ≤ l := by omega
  rcases hkl.lt_or_eq with hlt | rfl
  · have h1 : divNearestEven a (b * 2 ^ k) ≤ 2 ^ (f.fracBits + 1) := by
      refine (divNearestEven_le _ _).trans ?_
      rw [div_mul_pow, Nat.succ_le_iff, Nat.div_lt_iff_lt_mul (by positivity), ← pow_add]
      exact (lt_log2_succ _).trans_le (Nat.pow_le_pow_right (by omega) (by omega))
    have h2 : 2 ^ f.fracBits ≤ divNearestEven c (d * 2 ^ l) := by
      refine le_trans ?_ (le_divNearestEven _ _)
      rw [div_mul_pow, Nat.le_div_iff_mul_le (by positivity), ← pow_add]
      have hne : c / d ≠ 0 := by intro e; rw [e] at hl; simp at hl; omega
      exact (Nat.pow_le_pow_right (by omega) (by omega)).trans (Nat.log2_self_le hne)
    calc divNearestEven a (b * 2 ^ k) * 2 ^ k ≤ 2 ^ (f.fracBits + 1) * 2 ^ k := Nat.mul_le_mul_right _ h1
      _ = 2 ^ f.fracBits * 2 ^ (k + 1) := by ring
      _ ≤ 2 ^ f.fracBits * 2 ^ l := Nat.mul_le_mul_left _ (Nat.pow_le_pow_right (by omega) hlt)
      _ ≤ divNearestEven c (d * 2 ^ l) * 2 ^ l := Nat.mul_le_mul_right _ h2
  · refine Nat.mul_le_mul_right _ (divNearestEven_mono (by positivity) (by positivity) ?_)
    calc a * (d * 2 ^ k) = a * d * 2 ^ k := by ring
      _ ≤ c * b * 2 ^ k := Nat.mul_le_mul_right _ h
      _ = c * (b * 2 ^ k) := by ring

/-- A magnitude with few enough significant bits rounds to itself. -/
theorem roundMag_exact (f : FloatFmt) {k e : Nat} (hk : k ≤ 2 ^ (f.fracBits + 1)) :
    roundMag f (k * 2 ^ e) 1 = k * 2 ^ e := by
  unfold roundMag
  dsimp only
  rw [Nat.div_one, Nat.one_mul]
  generalize hd : Nat.log2 (k * 2 ^ e) - f.fracBits = d
  suffices h : 2 ^ d ∣ k * 2 ^ e by
    obtain ⟨q, hq⟩ := h
    rw [hq, Nat.mul_comm (2 ^ d) q, divNearestEven_exact (by positivity)]
  by_cases hz : k * 2 ^ e = 0
  · rw [hz]; exact dvd_zero _
  · rcases hk.lt_or_eq with h | rfl
    · have hlt : k * 2 ^ e < 2 ^ (f.fracBits + 1 + e) := by
        rw [pow_add]; exact Nat.mul_lt_mul_of_pos_right h (by positivity)
      have := (Nat.log2_lt hz).2 hlt
      exact Dvd.dvd.mul_left (pow_dvd_pow 2 (by omega)) k
    · rw [← pow_add] at hd ⊢
      rw [Nat.log2_two_pow] at hd
      exact pow_dvd_pow 2 (by omega)

/-- Rounding what rounding gave changes nothing. -/
theorem roundMag_roundMag (f : FloatFmt) (num den : Nat) :
    roundMag f (roundMag f num den) 1 = roundMag f num den := by
  refine roundMag_exact f (k := divNearestEven num (den * 2 ^ (Nat.log2 (num / den) - f.fracBits))) ?_
  refine (divNearestEven_le _ _).trans ?_
  rw [div_mul_pow, Nat.succ_le_iff, Nat.div_lt_iff_lt_mul (by positivity), ← pow_add]
  exact (lt_log2_succ _).trans_le (Nat.pow_le_pow_right (by omega) (by omega))

end Sys2Proof.Machine
end

