-- ==== Sys2Proof/Laws/Memory.lean ====
section
/-! SUPPORT. What the buffer operations do, said through the read of one byte, and that each keeps the canonical
form. -/

namespace Sys2Proof.Machine

@[simp] theorem Memory.read_nil (off : Nat) : Memory.read [] off = none := rfl

theorem Memory.read_cons (c : Host.Cell) (m : Memory) (off : Nat) :
    Memory.read (c :: m) off = if c.1 = off then some c.2 else Memory.read m off := rfl

@[simp] theorem Memory.read_write_same (m : Memory) (off : Nat) (b : Byte) :
    (m.write off b).read off = some b := by
  induction m with
  | nil => simp [Memory.write, Memory.read]
  | cons c m ih =>
    simp only [Memory.write]
    split
    · simp [Memory.read]
    · split
      · simp [Memory.read]
      · rename_i h; simp [Memory.read, Ne.symm h, ih]

theorem Memory.read_write_other (m : Memory) {off a : Nat} (b : Byte) (h : a ≠ off) :
    (m.write off b).read a = m.read a := by
  induction m with
  | nil => simp [Memory.write, Memory.read, h.symm]
  | cons c m ih =>
    simp only [Memory.write]
    split
    · simp [Memory.read, h.symm]
    · split
      · rename_i hc; subst hc; simp [Memory.read, h.symm]
      · simp [Memory.read, ih]

theorem Memory.read_write (m : Memory) (off a : Nat) (b : Byte) :
    (m.write off b).read a = if a = off then some b else m.read a := by
  split
  · rename_i h; subst h; simp
  · rename_i h; exact m.read_write_other b h

theorem Memory.mem_write {m : Memory} {off : Nat} {b : Byte} {c : Host.Cell} (h : c ∈ m.write off b) :
    c = (off, b) ∨ c ∈ m := by
  induction m with
  | nil => simpa [Memory.write] using h
  | cons d m ih =>
    simp only [Memory.write] at h
    split at h
    · simpa using h
    · split at h
      · simp only [List.mem_cons] at h ⊢; tauto
      · simp only [List.mem_cons] at h ⊢
        rcases h with h | h
        · tauto
        · rcases ih h with h | h <;> tauto

theorem Memory.wf_write {m : Memory} (hm : m.wf) (off : Nat) (b : Byte) : (m.write off b).wf := by
  induction m with
  | nil => simp [Memory.write]
  | cons c m ih =>
    have hm := List.pairwise_cons.1 hm
    simp only [Memory.write]
    split
    · rename_i hlt
      refine List.pairwise_cons.2 ⟨fun d hd => ?_, List.pairwise_cons.2 hm⟩
      rcases List.mem_cons.1 hd with rfl | hd
      · exact hlt
      · exact lt_trans hlt (hm.1 d hd)
    · split
      · rename_i heq; subst heq; exact List.pairwise_cons.2 hm
      · rename_i hlt hne
        refine List.pairwise_cons.2 ⟨fun d hd => ?_, ih hm.2⟩
        rcases Memory.mem_write hd with rfl | hd
        · exact lt_of_le_of_ne (not_lt.1 hlt) (Ne.symm hne)
        · exact hm.1 d hd

theorem read_cellsFrom (bs : List Byte) (base off : Nat) :
    Memory.read (cellsFrom base bs) off = if base ≤ off then bs[off - base]? else none := by
  induction bs generalizing base with
  | nil => simp [cellsFrom]
  | cons b bs ih =>
    rw [cellsFrom, Memory.read_cons, ih]
    rcases lt_trichotomy base off with h | h | h
    · obtain ⟨d, rfl⟩ := Nat.exists_eq_add_of_lt h
      have h1 : base + d + 1 - base = d + 1 := by omega
      have h2 : base + d + 1 - (base + 1) = d := by omega
      have h3 : base + 1 ≤ base + d + 1 := by omega
      simp [h.ne, h.le, h1, h2, h3]
    · subst h; simp
    · simp [h.ne', not_le.2 h, show ¬ base + 1 ≤ off by omega]

theorem Memory.read_append (m n : Memory) (off : Nat) :
    Memory.read (m ++ n) off = (Memory.read m off).or (Memory.read n off) := by
  induction m with
  | nil => simp [Memory.read]
  | cons c m ih => rw [List.cons_append, Memory.read_cons, Memory.read_cons, ih]; split <;> simp

theorem Memory.read_filter_ge (m : Memory) {n off : Nat} (h : n ≤ off) :
    Memory.read (m.filter fun c => decide (n ≤ c.1)) off = m.read off := by
  induction m with
  | nil => rfl
  | cons c m ih =>
    rw [List.filter_cons]
    split
    · rw [Memory.read_cons, Memory.read_cons, ih]
    · rename_i hc
      have : c.1 ≠ off := by intro e; simp [e] at hc; omega
      rw [Memory.read_cons, if_neg this, ih]

/-- What a whole-region write leaves: the new bytes below its length, the old ones from there on. -/
theorem Memory.read_overwrite (m : Memory) (bytes : List Byte) (off : Nat) :
    (m.overwrite bytes).read off = if off < bytes.length then bytes[off]? else m.read off := by
  rw [Memory.overwrite, Memory.read_append, read_cellsFrom, if_pos (Nat.zero_le off), Nat.sub_zero]
  by_cases h : off < bytes.length
  · rw [if_pos h, List.getElem?_eq_getElem h]; rfl
  · rw [if_neg h, List.getElem?_eq_none (not_lt.1 h), Memory.read_filter_ge m (not_lt.1 h)]; rfl

theorem mem_cellsFrom {bs : List Byte} {base : Nat} {c : Host.Cell} (h : c ∈ cellsFrom base bs) :
    base ≤ c.1 ∧ c.1 < base + bs.length := by
  induction bs generalizing base with
  | nil => simp [cellsFrom] at h
  | cons b bs ih =>
    rcases List.mem_cons.1 h with rfl | h
    · simp
    · have := ih h; simp only [List.length_cons]; omega

theorem wf_cellsFrom (bs : List Byte) (base : Nat) : Memory.wf (cellsFrom base bs) := by
  induction bs generalizing base with
  | nil => exact List.Pairwise.nil
  | cons b bs ih =>
    exact List.pairwise_cons.2 ⟨fun d hd => (mem_cellsFrom hd).1, ih (base + 1)⟩

theorem Memory.wf_overwrite {m : Memory} (hm : m.wf) (bytes : List Byte) : (m.overwrite bytes).wf := by
  refine List.pairwise_append.2 ⟨wf_cellsFrom bytes 0, hm.filter _, fun a ha b hb => ?_⟩
  have h1 := mem_cellsFrom ha
  have h2 : bytes.length ≤ b.1 := by simpa using (List.mem_filter.1 hb).2
  omega

end Sys2Proof.Machine
end

