-- ==== Sys2Proof/Laws/State.lean ====
section
/-! SUPPORT. One lemma per field per update of the state, so that no proof unfolds a record update. -/

namespace Sys2Proof.Machine

/-! ### complete -/

@[simp] theorem State.complete_cfg (s : State) : s.complete.cfg = s.cfg := rfl
@[simp] theorem State.complete_width (s : State) : s.complete.width = s.width := rfl
@[simp] theorem State.complete_height (s : State) : s.complete.height = s.height := rfl
@[simp] theorem State.complete_hue (s : State) : s.complete.hue = s.hue := rfl
@[simp] theorem State.complete_sat (s : State) : s.complete.sat = s.sat := rfl
@[simp] theorem State.complete_luma (s : State) : s.complete.luma = s.luma := rfl
@[simp] theorem State.complete_status (s : State) : s.complete.status = s.status.completed := rfl
@[simp] theorem State.complete_engine (s : State) : s.complete.engine = .idle := rfl
@[simp] theorem State.complete_src (s : State) : s.complete.src = s.src := rfl
@[simp] theorem State.complete_idx (s : State) : s.complete.idx = s.idx := rfl
@[simp] theorem State.complete_comp (s : State) : s.complete.comp = s.comp := rfl
@[simp] theorem State.complete_out (s : State) : s.complete.out = s.out := rfl
@[simp] theorem State.complete_faults (s : State) : s.complete.faults = s.faults := rfl
@[simp] theorem State.complete_pending (s : State) : s.complete.pending = s.pending := rfl
@[simp] theorem State.complete_turns (s : State) : s.complete.turns = s.turns := rfl
@[simp] theorem State.complete_replies (s : State) : s.complete.replies = s.replies := rfl
@[simp] theorem State.complete_draws (s : State) : s.complete.draws = s.draws := rfl
@[simp] theorem State.complete_busy (s : State) : s.complete.busy = false := rfl
@[simp] theorem State.complete_buf (s : State) (i : BufId) : s.complete.buf i = s.buf i := by cases i <;> rfl

/-! ### raiseErr -/

@[simp] theorem State.raiseErr_cfg (s : State) (e : ErrCode) : (s.raiseErr e).cfg = s.cfg := rfl
@[simp] theorem State.raiseErr_width (s : State) (e : ErrCode) : (s.raiseErr e).width = s.width := rfl
@[simp] theorem State.raiseErr_height (s : State) (e : ErrCode) : (s.raiseErr e).height = s.height := rfl
@[simp] theorem State.raiseErr_hue (s : State) (e : ErrCode) : (s.raiseErr e).hue = s.hue := rfl
@[simp] theorem State.raiseErr_sat (s : State) (e : ErrCode) : (s.raiseErr e).sat = s.sat := rfl
@[simp] theorem State.raiseErr_luma (s : State) (e : ErrCode) : (s.raiseErr e).luma = s.luma := rfl
@[simp] theorem State.raiseErr_status (s : State) (e : ErrCode) : (s.raiseErr e).status = s.status.errored e := rfl
@[simp] theorem State.raiseErr_engine (s : State) (e : ErrCode) : (s.raiseErr e).engine = .idle := rfl
@[simp] theorem State.raiseErr_src (s : State) (e : ErrCode) : (s.raiseErr e).src = s.src := rfl
@[simp] theorem State.raiseErr_idx (s : State) (e : ErrCode) : (s.raiseErr e).idx = s.idx := rfl
@[simp] theorem State.raiseErr_comp (s : State) (e : ErrCode) : (s.raiseErr e).comp = s.comp := rfl
@[simp] theorem State.raiseErr_out (s : State) (e : ErrCode) : (s.raiseErr e).out = s.out := rfl
@[simp] theorem State.raiseErr_faults (s : State) (e : ErrCode) : (s.raiseErr e).faults = s.faults := rfl
@[simp] theorem State.raiseErr_pending (s : State) (e : ErrCode) : (s.raiseErr e).pending = s.pending := rfl
@[simp] theorem State.raiseErr_turns (s : State) (e : ErrCode) : (s.raiseErr e).turns = s.turns := rfl
@[simp] theorem State.raiseErr_replies (s : State) (e : ErrCode) : (s.raiseErr e).replies = s.replies := rfl
@[simp] theorem State.raiseErr_draws (s : State) (e : ErrCode) : (s.raiseErr e).draws = s.draws := rfl
@[simp] theorem State.raiseErr_busy (s : State) (e : ErrCode) : (s.raiseErr e).busy = false := rfl
@[simp] theorem State.raiseErr_buf (s : State) (e : ErrCode) (i : BufId) : (s.raiseErr e).buf i = s.buf i := by cases i <;> rfl

/-! ### issue -/

@[simp] theorem State.issue_cfg (s : State) (w : Word) : (s.issue w).cfg = s.cfg := rfl
@[simp] theorem State.issue_width (s : State) (w : Word) : (s.issue w).width = s.width := rfl
@[simp] theorem State.issue_height (s : State) (w : Word) : (s.issue w).height = s.height := rfl
@[simp] theorem State.issue_hue (s : State) (w : Word) : (s.issue w).hue = s.hue := rfl
@[simp] theorem State.issue_sat (s : State) (w : Word) : (s.issue w).sat = s.sat := rfl
@[simp] theorem State.issue_luma (s : State) (w : Word) : (s.issue w).luma = s.luma := rfl
@[simp] theorem State.issue_status (s : State) (w : Word) : (s.issue w).status = s.status.cleared := rfl
@[simp] theorem State.issue_engine (s : State) (w : Word) : (s.issue w).engine = .busy (s.latchNow w) := rfl
@[simp] theorem State.issue_src (s : State) (w : Word) : (s.issue w).src = s.src := rfl
@[simp] theorem State.issue_idx (s : State) (w : Word) : (s.issue w).idx = s.idx := rfl
@[simp] theorem State.issue_comp (s : State) (w : Word) : (s.issue w).comp = s.comp := rfl
@[simp] theorem State.issue_out (s : State) (w : Word) : (s.issue w).out = s.out := rfl
@[simp] theorem State.issue_faults (s : State) (w : Word) : (s.issue w).faults = s.faults := rfl
@[simp] theorem State.issue_pending (s : State) (w : Word) : (s.issue w).pending = s.pending := rfl
@[simp] theorem State.issue_turns (s : State) (w : Word) : (s.issue w).turns = s.turns := rfl
@[simp] theorem State.issue_replies (s : State) (w : Word) : (s.issue w).replies = s.replies := rfl
@[simp] theorem State.issue_draws (s : State) (w : Word) : (s.issue w).draws = s.draws := rfl
@[simp] theorem State.issue_busy (s : State) (w : Word) : (s.issue w).busy = true := rfl
@[simp] theorem State.issue_buf (s : State) (w : Word) (i : BufId) : (s.issue w).buf i = s.buf i := by cases i <;> rfl

/-! ### toIdle -/

@[simp] theorem State.toIdle_cfg (s : State) : s.toIdle.cfg = s.cfg := rfl
@[simp] theorem State.toIdle_width (s : State) : s.toIdle.width = s.width := rfl
@[simp] theorem State.toIdle_height (s : State) : s.toIdle.height = s.height := rfl
@[simp] theorem State.toIdle_hue (s : State) : s.toIdle.hue = s.hue := rfl
@[simp] theorem State.toIdle_sat (s : State) : s.toIdle.sat = s.sat := rfl
@[simp] theorem State.toIdle_luma (s : State) : s.toIdle.luma = s.luma := rfl
@[simp] theorem State.toIdle_status (s : State) : s.toIdle.status = s.status.cleared := rfl
@[simp] theorem State.toIdle_engine (s : State) : s.toIdle.engine = .idle := rfl
@[simp] theorem State.toIdle_src (s : State) : s.toIdle.src = s.src := rfl
@[simp] theorem State.toIdle_idx (s : State) : s.toIdle.idx = s.idx := rfl
@[simp] theorem State.toIdle_comp (s : State) : s.toIdle.comp = s.comp := rfl
@[simp] theorem State.toIdle_out (s : State) : s.toIdle.out = s.out := rfl
@[simp] theorem State.toIdle_faults (s : State) : s.toIdle.faults = s.faults := rfl
@[simp] theorem State.toIdle_pending (s : State) : s.toIdle.pending = s.pending := rfl
@[simp] theorem State.toIdle_turns (s : State) : s.toIdle.turns = s.turns := rfl
@[simp] theorem State.toIdle_replies (s : State) : s.toIdle.replies = s.replies := rfl
@[simp] theorem State.toIdle_draws (s : State) : s.toIdle.draws = s.draws := rfl
@[simp] theorem State.toIdle_busy (s : State) : s.toIdle.busy = false := rfl
@[simp] theorem State.toIdle_buf (s : State) (i : BufId) : s.toIdle.buf i = s.buf i := by cases i <;> rfl

/-! ### resetRegisters -/

@[simp] theorem State.resetRegisters_cfg (s : State) : s.resetRegisters.cfg = s.cfg := rfl
@[simp] theorem State.resetRegisters_width (s : State) : s.resetRegisters.width = resetWidth := rfl
@[simp] theorem State.resetRegisters_height (s : State) : s.resetRegisters.height = resetHeight := rfl
@[simp] theorem State.resetRegisters_hue (s : State) : s.resetRegisters.hue = resetHue := rfl
@[simp] theorem State.resetRegisters_sat (s : State) : s.resetRegisters.sat = resetSat := rfl
@[simp] theorem State.resetRegisters_luma (s : State) : s.resetRegisters.luma = resetLuma := rfl
@[simp] theorem State.resetRegisters_status (s : State) : s.resetRegisters.status = s.status := rfl
@[simp] theorem State.resetRegisters_engine (s : State) : s.resetRegisters.engine = s.engine := rfl
@[simp] theorem State.resetRegisters_src (s : State) : s.resetRegisters.src = s.src := rfl
@[simp] theorem State.resetRegisters_idx (s : State) : s.resetRegisters.idx = s.idx := rfl
@[simp] theorem State.resetRegisters_comp (s : State) : s.resetRegisters.comp = s.comp := rfl
@[simp] theorem State.resetRegisters_out (s : State) : s.resetRegisters.out = s.out := rfl
@[simp] theorem State.resetRegisters_faults (s : State) : s.resetRegisters.faults = s.faults := rfl
@[simp] theorem State.resetRegisters_pending (s : State) : s.resetRegisters.pending = s.pending := rfl
@[simp] theorem State.resetRegisters_turns (s : State) : s.resetRegisters.turns = s.turns := rfl
@[simp] theorem State.resetRegisters_replies (s : State) : s.resetRegisters.replies = s.replies := rfl
@[simp] theorem State.resetRegisters_draws (s : State) : s.resetRegisters.draws = s.draws := rfl
@[simp] theorem State.resetRegisters_busy (s : State) : s.resetRegisters.busy = s.busy := rfl
@[simp] theorem State.resetRegisters_buf (s : State) (i : BufId) : s.resetRegisters.buf i = s.buf i := by cases i <;> rfl

/-! ### setHaz -/

@[simp] theorem State.setHaz_cfg (s : State) : s.setHaz.cfg = s.cfg := rfl
@[simp] theorem State.setHaz_width (s : State) : s.setHaz.width = s.width := rfl
@[simp] theorem State.setHaz_height (s : State) : s.setHaz.height = s.height := rfl
@[simp] theorem State.setHaz_hue (s : State) : s.setHaz.hue = s.hue := rfl
@[simp] theorem State.setHaz_sat (s : State) : s.setHaz.sat = s.sat := rfl
@[simp] theorem State.setHaz_luma (s : State) : s.setHaz.luma = s.luma := rfl
@[simp] theorem State.setHaz_status (s : State) : s.setHaz.status = s.status.hazarded := rfl
@[simp] theorem State.setHaz_engine (s : State) : s.setHaz.engine = s.engine := rfl
@[simp] theorem State.setHaz_src (s : State) : s.setHaz.src = s.src := rfl
@[simp] theorem State.setHaz_idx (s : State) : s.setHaz.idx = s.idx := rfl
@[simp] theorem State.setHaz_comp (s : State) : s.setHaz.comp = s.comp := rfl
@[simp] theorem State.setHaz_out (s : State) : s.setHaz.out = s.out := rfl
@[simp] theorem State.setHaz_faults (s : State) : s.setHaz.faults = s.faults := rfl
@[simp] theorem State.setHaz_pending (s : State) : s.setHaz.pending = s.pending := rfl
@[simp] theorem State.setHaz_turns (s : State) : s.setHaz.turns = s.turns := rfl
@[simp] theorem State.setHaz_replies (s : State) : s.setHaz.replies = s.replies := rfl
@[simp] theorem State.setHaz_draws (s : State) : s.setHaz.draws = s.draws := rfl
@[simp] theorem State.setHaz_busy (s : State) : s.setHaz.busy = s.busy := rfl
@[simp] theorem State.setHaz_buf (s : State) (i : BufId) : s.setHaz.buf i = s.buf i := by cases i <;> rfl

/-! ### reply -/

@[simp] theorem State.reply_cfg (s : State) (a : Word) (n : Nat) (v : Word) : (s.reply a n v).cfg = s.cfg := rfl
@[simp] theorem State.reply_width (s : State) (a : Word) (n : Nat) (v : Word) : (s.reply a n v).width = s.width := rfl
@[simp] theorem State.reply_height (s : State) (a : Word) (n : Nat) (v : Word) : (s.reply a n v).height = s.height := rfl
@[simp] theorem State.reply_hue (s : State) (a : Word) (n : Nat) (v : Word) : (s.reply a n v).hue = s.hue := rfl
@[simp] theorem State.reply_sat (s : State) (a : Word) (n : Nat) (v : Word) : (s.reply a n v).sat = s.sat := rfl
@[simp] theorem State.reply_luma (s : State) (a : Word) (n : Nat) (v : Word) : (s.reply a n v).luma = s.luma := rfl
@[simp] theorem State.reply_status (s : State) (a : Word) (n : Nat) (v : Word) : (s.reply a n v).status = s.status := rfl
@[simp] theorem State.reply_engine (s : State) (a : Word) (n : Nat) (v : Word) : (s.reply a n v).engine = s.engine := rfl
@[simp] theorem State.reply_src (s : State) (a : Word) (n : Nat) (v : Word) : (s.reply a n v).src = s.src := rfl
@[simp] theorem State.reply_idx (s : State) (a : Word) (n : Nat) (v : Word) : (s.reply a n v).idx = s.idx := rfl
@[simp] theorem State.reply_comp (s : State) (a : Word) (n : Nat) (v : Word) : (s.reply a n v).comp = s.comp := rfl
@[simp] theorem State.reply_out (s : State) (a : Word) (n : Nat) (v : Word) : (s.reply a n v).out = s.out := rfl
@[simp] theorem State.reply_faults (s : State) (a : Word) (n : Nat) (v : Word) : (s.reply a n v).faults = s.faults := rfl
@[simp] theorem State.reply_pending (s : State) (a : Word) (n : Nat) (v : Word) : (s.reply a n v).pending = s.pending := rfl
@[simp] theorem State.reply_turns (s : State) (a : Word) (n : Nat) (v : Word) : (s.reply a n v).turns = s.turns := rfl
@[simp] theorem State.reply_replies (s : State) (a : Word) (n : Nat) (v : Word) : (s.reply a n v).replies = ⟨a, n, v⟩ :: s.replies := rfl
@[simp] theorem State.reply_draws (s : State) (a : Word) (n : Nat) (v : Word) : (s.reply a n v).draws = s.draws := rfl
@[simp] theorem State.reply_busy (s : State) (a : Word) (n : Nat) (v : Word) : (s.reply a n v).busy = s.busy := rfl
@[simp] theorem State.reply_buf (s : State) (a : Word) (n : Nat) (v : Word) (i : BufId) : (s.reply a n v).buf i = s.buf i := by cases i <;> rfl

/-! ### drew -/

@[simp] theorem State.drew_cfg (s : State) (n : Nat) : (s.drew n).cfg = s.cfg := rfl
@[simp] theorem State.drew_width (s : State) (n : Nat) : (s.drew n).width = s.width := rfl
@[simp] theorem State.drew_height (s : State) (n : Nat) : (s.drew n).height = s.height := rfl
@[simp] theorem State.drew_hue (s : State) (n : Nat) : (s.drew n).hue = s.hue := rfl
@[simp] theorem State.drew_sat (s : State) (n : Nat) : (s.drew n).sat = s.sat := rfl
@[simp] theorem State.drew_luma (s : State) (n : Nat) : (s.drew n).luma = s.luma := rfl
@[simp] theorem State.drew_status (s : State) (n : Nat) : (s.drew n).status = s.status := rfl
@[simp] theorem State.drew_engine (s : State) (n : Nat) : (s.drew n).engine = s.engine := rfl
@[simp] theorem State.drew_src (s : State) (n : Nat) : (s.drew n).src = s.src := rfl
@[simp] theorem State.drew_idx (s : State) (n : Nat) : (s.drew n).idx = s.idx := rfl
@[simp] theorem State.drew_comp (s : State) (n : Nat) : (s.drew n).comp = s.comp := rfl
@[simp] theorem State.drew_out (s : State) (n : Nat) : (s.drew n).out = s.out := rfl
@[simp] theorem State.drew_faults (s : State) (n : Nat) : (s.drew n).faults = s.faults := rfl
@[simp] theorem State.drew_pending (s : State) (n : Nat) : (s.drew n).pending = s.pending := rfl
@[simp] theorem State.drew_turns (s : State) (n : Nat) : (s.drew n).turns = s.turns := rfl
@[simp] theorem State.drew_replies (s : State) (n : Nat) : (s.drew n).replies = s.replies := rfl
@[simp] theorem State.drew_draws (s : State) (n : Nat) : (s.drew n).draws = s.draws + n := rfl
@[simp] theorem State.drew_busy (s : State) (n : Nat) : (s.drew n).busy = s.busy := rfl
@[simp] theorem State.drew_buf (s : State) (n : Nat) (i : BufId) : (s.drew n).buf i = s.buf i := by cases i <;> rfl

/-! ### popTurn -/

@[simp] theorem State.popTurn_cfg (s : State) : s.popTurn.cfg = s.cfg := rfl
@[simp] theorem State.popTurn_width (s : State) : s.popTurn.width = s.width := rfl
@[simp] theorem State.popTurn_height (s : State) : s.popTurn.height = s.height := rfl
@[simp] theorem State.popTurn_hue (s : State) : s.popTurn.hue = s.hue := rfl
@[simp] theorem State.popTurn_sat (s : State) : s.popTurn.sat = s.sat := rfl
@[simp] theorem State.popTurn_luma (s : State) : s.popTurn.luma = s.luma := rfl
@[simp] theorem State.popTurn_status (s : State) : s.popTurn.status = s.status := rfl
@[simp] theorem State.popTurn_engine (s : State) : s.popTurn.engine = s.engine := rfl
@[simp] theorem State.popTurn_src (s : State) : s.popTurn.src = s.src := rfl
@[simp] theorem State.popTurn_idx (s : State) : s.popTurn.idx = s.idx := rfl
@[simp] theorem State.popTurn_comp (s : State) : s.popTurn.comp = s.comp := rfl
@[simp] theorem State.popTurn_out (s : State) : s.popTurn.out = s.out := rfl
@[simp] theorem State.popTurn_faults (s : State) : s.popTurn.faults = s.faults := rfl
@[simp] theorem State.popTurn_pending (s : State) : s.popTurn.pending = s.pending := rfl
@[simp] theorem State.popTurn_turns (s : State) : s.popTurn.turns = s.turns.tail := rfl
@[simp] theorem State.popTurn_replies (s : State) : s.popTurn.replies = s.replies := rfl
@[simp] theorem State.popTurn_draws (s : State) : s.popTurn.draws = s.draws := rfl
@[simp] theorem State.popTurn_busy (s : State) : s.popTurn.busy = s.busy := rfl
@[simp] theorem State.popTurn_buf (s : State) (i : BufId) : s.popTurn.buf i = s.buf i := by cases i <;> rfl

/-! ### popPending -/

@[simp] theorem State.popPending_cfg (s : State) : s.popPending.cfg = s.cfg := rfl
@[simp] theorem State.popPending_width (s : State) : s.popPending.width = s.width := rfl
@[simp] theorem State.popPending_height (s : State) : s.popPending.height = s.height := rfl
@[simp] theorem State.popPending_hue (s : State) : s.popPending.hue = s.hue := rfl
@[simp] theorem State.popPending_sat (s : State) : s.popPending.sat = s.sat := rfl
@[simp] theorem State.popPending_luma (s : State) : s.popPending.luma = s.luma := rfl
@[simp] theorem State.popPending_status (s : State) : s.popPending.status = s.status := rfl
@[simp] theorem State.popPending_engine (s : State) : s.popPending.engine = s.engine := rfl
@[simp] theorem State.popPending_src (s : State) : s.popPending.src = s.src := rfl
@[simp] theorem State.popPending_idx (s : State) : s.popPending.idx = s.idx := rfl
@[simp] theorem State.popPending_comp (s : State) : s.popPending.comp = s.comp := rfl
@[simp] theorem State.popPending_out (s : State) : s.popPending.out = s.out := rfl
@[simp] theorem State.popPending_faults (s : State) : s.popPending.faults = s.faults := rfl
@[simp] theorem State.popPending_pending (s : State) : s.popPending.pending = s.pending.tail := rfl
@[simp] theorem State.popPending_turns (s : State) : s.popPending.turns = s.turns := rfl
@[simp] theorem State.popPending_replies (s : State) : s.popPending.replies = s.replies := rfl
@[simp] theorem State.popPending_draws (s : State) : s.popPending.draws = s.draws := rfl
@[simp] theorem State.popPending_busy (s : State) : s.popPending.busy = s.busy := rfl
@[simp] theorem State.popPending_buf (s : State) (i : BufId) : s.popPending.buf i = s.buf i := by cases i <;> rfl

/-! ### withCommand -/

@[simp] theorem State.withCommand_cfg (s : State) (w : Word) : (s.withCommand w).cfg = s.cfg := rfl
@[simp] theorem State.withCommand_width (s : State) (w : Word) : (s.withCommand w).width = s.width := rfl
@[simp] theorem State.withCommand_height (s : State) (w : Word) : (s.withCommand w).height = s.height := rfl
@[simp] theorem State.withCommand_hue (s : State) (w : Word) : (s.withCommand w).hue = s.hue := rfl
@[simp] theorem State.withCommand_sat (s : State) (w : Word) : (s.withCommand w).sat = s.sat := rfl
@[simp] theorem State.withCommand_luma (s : State) (w : Word) : (s.withCommand w).luma = s.luma := rfl
@[simp] theorem State.withCommand_status (s : State) (w : Word) : (s.withCommand w).status = s.status.cleared := rfl
@[simp] theorem State.withCommand_engine (s : State) (w : Word) : (s.withCommand w).engine = .busy (s.latchNow w) := rfl
@[simp] theorem State.withCommand_src (s : State) (w : Word) : (s.withCommand w).src = s.src := rfl
@[simp] theorem State.withCommand_idx (s : State) (w : Word) : (s.withCommand w).idx = s.idx := rfl
@[simp] theorem State.withCommand_comp (s : State) (w : Word) : (s.withCommand w).comp = s.comp := rfl
@[simp] theorem State.withCommand_out (s : State) (w : Word) : (s.withCommand w).out = s.out := rfl
@[simp] theorem State.withCommand_faults (s : State) (w : Word) : (s.withCommand w).faults = s.faults := rfl
@[simp] theorem State.withCommand_pending (s : State) (w : Word) : (s.withCommand w).pending = s.pending := rfl
@[simp] theorem State.withCommand_turns (s : State) (w : Word) : (s.withCommand w).turns = [] := rfl
@[simp] theorem State.withCommand_replies (s : State) (w : Word) : (s.withCommand w).replies = s.replies := rfl
@[simp] theorem State.withCommand_draws (s : State) (w : Word) : (s.withCommand w).draws = s.draws := rfl
@[simp] theorem State.withCommand_busy (s : State) (w : Word) : (s.withCommand w).busy = true := rfl
@[simp] theorem State.withCommand_buf (s : State) (w : Word) (i : BufId) : (s.withCommand w).buf i = s.buf i := by cases i <;> rfl

/-! ### setBuf -/

@[simp] theorem State.setBuf_cfg (s : State) (b : BufId) (m : Memory) : (s.setBuf b m).cfg = s.cfg := by cases b <;> rfl
@[simp] theorem State.setBuf_width (s : State) (b : BufId) (m : Memory) : (s.setBuf b m).width = s.width := by cases b <;> rfl
@[simp] theorem State.setBuf_height (s : State) (b : BufId) (m : Memory) : (s.setBuf b m).height = s.height := by cases b <;> rfl
@[simp] theorem State.setBuf_hue (s : State) (b : BufId) (m : Memory) : (s.setBuf b m).hue = s.hue := by cases b <;> rfl
@[simp] theorem State.setBuf_sat (s : State) (b : BufId) (m : Memory) : (s.setBuf b m).sat = s.sat := by cases b <;> rfl
@[simp] theorem State.setBuf_luma (s : State) (b : BufId) (m : Memory) : (s.setBuf b m).luma = s.luma := by cases b <;> rfl
@[simp] theorem State.setBuf_status (s : State) (b : BufId) (m : Memory) : (s.setBuf b m).status = s.status := by cases b <;> rfl
@[simp] theorem State.setBuf_engine (s : State) (b : BufId) (m : Memory) : (s.setBuf b m).engine = s.engine := by cases b <;> rfl
@[simp] theorem State.setBuf_faults (s : State) (b : BufId) (m : Memory) : (s.setBuf b m).faults = s.faults := by cases b <;> rfl
@[simp] theorem State.setBuf_pending (s : State) (b : BufId) (m : Memory) : (s.setBuf b m).pending = s.pending := by cases b <;> rfl
@[simp] theorem State.setBuf_turns (s : State) (b : BufId) (m : Memory) : (s.setBuf b m).turns = s.turns := by cases b <;> rfl
@[simp] theorem State.setBuf_replies (s : State) (b : BufId) (m : Memory) : (s.setBuf b m).replies = s.replies := by cases b <;> rfl
@[simp] theorem State.setBuf_draws (s : State) (b : BufId) (m : Memory) : (s.setBuf b m).draws = s.draws := by cases b <;> rfl
@[simp] theorem State.setBuf_busy (s : State) (b : BufId) (m : Memory) : (s.setBuf b m).busy = s.busy := by cases b <;> rfl
theorem State.buf_setBuf (s : State) (b i : BufId) (m : Memory) :
    (s.setBuf b m).buf i = if i = b then m else s.buf i := by cases b <;> cases i <;> rfl
@[simp] theorem State.buf_setBuf_same (s : State) (b : BufId) (m : Memory) : (s.setBuf b m).buf b = m := by
  cases b <;> rfl
theorem State.buf_setBuf_other (s : State) {b i : BufId} (m : Memory) (h : i ≠ b) :
    (s.setBuf b m).buf i = s.buf i := by rw [State.buf_setBuf, if_neg h]
@[simp] theorem State.buf_src (s : State) : s.buf .src = s.src := rfl
@[simp] theorem State.buf_idx (s : State) : s.buf .idx = s.idx := rfl
@[simp] theorem State.buf_comp (s : State) : s.buf .comp = s.comp := rfl
@[simp] theorem State.buf_out (s : State) : s.buf .out = s.out := rfl

/-! ### recordFault, noteUninit -/

@[simp] theorem State.recordFault_cfg (s : State) (f : Fault) : (s.recordFault f).cfg = s.cfg := by unfold State.recordFault; split <;> rfl
@[simp] theorem State.recordFault_width (s : State) (f : Fault) : (s.recordFault f).width = s.width := by unfold State.recordFault; split <;> rfl
@[simp] theorem State.recordFault_height (s : State) (f : Fault) : (s.recordFault f).height = s.height := by unfold State.recordFault; split <;> rfl
@[simp] theorem State.recordFault_hue (s : State) (f : Fault) : (s.recordFault f).hue = s.hue := by unfold State.recordFault; split <;> rfl
@[simp] theorem State.recordFault_sat (s : State) (f : Fault) : (s.recordFault f).sat = s.sat := by unfold State.recordFault; split <;> rfl
@[simp] theorem State.recordFault_luma (s : State) (f : Fault) : (s.recordFault f).luma = s.luma := by unfold State.recordFault; split <;> rfl
@[simp] theorem State.recordFault_status (s : State) (f : Fault) : (s.recordFault f).status = s.status := by unfold State.recordFault; split <;> rfl
@[simp] theorem State.recordFault_engine (s : State) (f : Fault) : (s.recordFault f).engine = s.engine := by unfold State.recordFault; split <;> rfl
@[simp] theorem State.recordFault_src (s : State) (f : Fault) : (s.recordFault f).src = s.src := by unfold State.recordFault; split <;> rfl
@[simp] theorem State.recordFault_idx (s : State) (f : Fault) : (s.recordFault f).idx = s.idx := by unfold State.recordFault; split <;> rfl
@[simp] theorem State.recordFault_comp (s : State) (f : Fault) : (s.recordFault f).comp = s.comp := by unfold State.recordFault; split <;> rfl
@[simp] theorem State.recordFault_out (s : State) (f : Fault) : (s.recordFault f).out = s.out := by unfold State.recordFault; split <;> rfl
@[simp] theorem State.recordFault_pending (s : State) (f : Fault) : (s.recordFault f).pending = s.pending := by unfold State.recordFault; split <;> rfl
@[simp] theorem State.recordFault_turns (s : State) (f : Fault) : (s.recordFault f).turns = s.turns := by unfold State.recordFault; split <;> rfl
@[simp] theorem State.recordFault_replies (s : State) (f : Fault) : (s.recordFault f).replies = s.replies := by unfold State.recordFault; split <;> rfl
@[simp] theorem State.recordFault_draws (s : State) (f : Fault) : (s.recordFault f).draws = s.draws := by unfold State.recordFault; split <;> rfl
@[simp] theorem State.recordFault_busy (s : State) (f : Fault) : (s.recordFault f).busy = s.busy := by simp [State.busy]
@[simp] theorem State.recordFault_buf (s : State) (f : Fault) (i : BufId) : (s.recordFault f).buf i = s.buf i := by cases i <;> simp

@[simp] theorem State.noteUninit_cfg (s : State) (u : Bool) : (s.noteUninit u).cfg = s.cfg := by cases u <;> simp [State.noteUninit]
@[simp] theorem State.noteUninit_width (s : State) (u : Bool) : (s.noteUninit u).width = s.width := by cases u <;> simp [State.noteUninit]
@[simp] theorem State.noteUninit_height (s : State) (u : Bool) : (s.noteUninit u).height = s.height := by cases u <;> simp [State.noteUninit]
@[simp] theorem State.noteUninit_hue (s : State) (u : Bool) : (s.noteUninit u).hue = s.hue := by cases u <;> simp [State.noteUninit]
@[simp] theorem State.noteUninit_sat (s : State) (u : Bool) : (s.noteUninit u).sat = s.sat := by cases u <;> simp [State.noteUninit]
@[simp] theorem State.noteUninit_luma (s : State) (u : Bool) : (s.noteUninit u).luma = s.luma := by cases u <;> simp [State.noteUninit]
@[simp] theorem State.noteUninit_status (s : State) (u : Bool) : (s.noteUninit u).status = s.status := by cases u <;> simp [State.noteUninit]
@[simp] theorem State.noteUninit_engine (s : State) (u : Bool) : (s.noteUninit u).engine = s.engine := by cases u <;> simp [State.noteUninit]
@[simp] theorem State.noteUninit_src (s : State) (u : Bool) : (s.noteUninit u).src = s.src := by cases u <;> simp [State.noteUninit]
@[simp] theorem State.noteUninit_idx (s : State) (u : Bool) : (s.noteUninit u).idx = s.idx := by cases u <;> simp [State.noteUninit]
@[simp] theorem State.noteUninit_comp (s : State) (u : Bool) : (s.noteUninit u).comp = s.comp := by cases u <;> simp [State.noteUninit]
@[simp] theorem State.noteUninit_out (s : State) (u : Bool) : (s.noteUninit u).out = s.out := by cases u <;> simp [State.noteUninit]
@[simp] theorem State.noteUninit_pending (s : State) (u : Bool) : (s.noteUninit u).pending = s.pending := by cases u <;> simp [State.noteUninit]
@[simp] theorem State.noteUninit_turns (s : State) (u : Bool) : (s.noteUninit u).turns = s.turns := by cases u <;> simp [State.noteUninit]
@[simp] theorem State.noteUninit_replies (s : State) (u : Bool) : (s.noteUninit u).replies = s.replies := by cases u <;> simp [State.noteUninit]
@[simp] theorem State.noteUninit_draws (s : State) (u : Bool) : (s.noteUninit u).draws = s.draws := by cases u <;> simp [State.noteUninit]
@[simp] theorem State.noteUninit_busy (s : State) (u : Bool) : (s.noteUninit u).busy = s.busy := by simp [State.busy]
@[simp] theorem State.noteUninit_buf (s : State) (u : Bool) (i : BufId) : (s.noteUninit u).buf i = s.buf i := by cases i <;> simp

theorem State.mem_recordFault (s : State) (f g : Fault) : g ∈ (s.recordFault f).faults ↔ g = f ∨ g ∈ s.faults := by
  unfold State.recordFault
  split
  · rename_i h; exact ⟨Or.inr, fun h' => h'.elim (fun e => e ▸ h) id⟩
  · simp

@[simp] theorem State.noteUninit_false (s : State) : s.noteUninit false = s := rfl

theorem State.mem_noteUninit (s : State) (u : Bool) (g : Fault) :
    g ∈ (s.noteUninit u).faults ↔ (u = true ∧ g = .uninit) ∨ g ∈ s.faults := by
  cases u <;> simp [State.noteUninit, State.mem_recordFault]

/-! ### finish -/

@[simp] theorem State.finish_cfg (s : State) (d : BufId) (bytes : List Byte) (u : Bool) :
    (s.finish d bytes u).cfg = s.cfg := by simp [State.finish]
@[simp] theorem State.finish_width (s : State) (d : BufId) (bytes : List Byte) (u : Bool) :
    (s.finish d bytes u).width = s.width := by simp [State.finish]
@[simp] theorem State.finish_height (s : State) (d : BufId) (bytes : List Byte) (u : Bool) :
    (s.finish d bytes u).height = s.height := by simp [State.finish]
@[simp] theorem State.finish_hue (s : State) (d : BufId) (bytes : List Byte) (u : Bool) :
    (s.finish d bytes u).hue = s.hue := by simp [State.finish]
@[simp] theorem State.finish_sat (s : State) (d : BufId) (bytes : List Byte) (u : Bool) :
    (s.finish d bytes u).sat = s.sat := by simp [State.finish]
@[simp] theorem State.finish_luma (s : State) (d : BufId) (bytes : List Byte) (u : Bool) :
    (s.finish d bytes u).luma = s.luma := by simp [State.finish]
@[simp] theorem State.finish_status (s : State) (d : BufId) (bytes : List Byte) (u : Bool) :
    (s.finish d bytes u).status = s.status.completed := by simp [State.finish]
@[simp] theorem State.finish_engine (s : State) (d : BufId) (bytes : List Byte) (u : Bool) :
    (s.finish d bytes u).engine = .idle := by simp [State.finish]
@[simp] theorem State.finish_pending (s : State) (d : BufId) (bytes : List Byte) (u : Bool) :
    (s.finish d bytes u).pending = s.pending := by simp [State.finish]
@[simp] theorem State.finish_turns (s : State) (d : BufId) (bytes : List Byte) (u : Bool) :
    (s.finish d bytes u).turns = s.turns := by simp [State.finish]
@[simp] theorem State.finish_replies (s : State) (d : BufId) (bytes : List Byte) (u : Bool) :
    (s.finish d bytes u).replies = s.replies := by simp [State.finish]
@[simp] theorem State.finish_draws (s : State) (d : BufId) (bytes : List Byte) (u : Bool) :
    (s.finish d bytes u).draws = s.draws + bytes.length := by simp [State.finish]
@[simp] theorem State.finish_busy (s : State) (d : BufId) (bytes : List Byte) (u : Bool) :
    (s.finish d bytes u).busy = false := by simp [State.finish]

theorem State.finish_buf (s : State) (d i : BufId) (bytes : List Byte) (u : Bool) :
    (s.finish d bytes u).buf i = if i = d then (s.buf d).overwrite bytes else s.buf i := by
  simp [State.finish, State.buf_setBuf]

@[simp] theorem State.finish_idx (s : State) (bytes : List Byte) (u : Bool) :
    (s.finish .idx bytes u).idx = s.idx.overwrite bytes := s.finish_buf .idx .idx bytes u
@[simp] theorem State.finish_comp (s : State) (bytes : List Byte) (u : Bool) :
    (s.finish .comp bytes u).comp = s.comp.overwrite bytes := s.finish_buf .comp .comp bytes u
@[simp] theorem State.finish_out (s : State) (bytes : List Byte) (u : Bool) :
    (s.finish .out bytes u).out = s.out.overwrite bytes := s.finish_buf .out .out bytes u

theorem State.mem_finish_faults (s : State) (d : BufId) (bytes : List Byte) (u : Bool) (g : Fault) :
    g ∈ (s.finish d bytes u).faults ↔ (u = true ∧ g = .uninit) ∨ g ∈ s.faults := by
  simp [State.finish, State.mem_noteUninit]

theorem State.finish_faults_clean (s : State) (d : BufId) (bytes : List Byte) :
    (s.finish d bytes false).faults = s.faults := by simp [State.finish]

/-! ### writeReg -/

@[simp] theorem State.writeReg_cfg (s : State) (r : RegId) (v : Word) : (s.writeReg r v).cfg = s.cfg := by cases r <;> rfl
@[simp] theorem State.writeReg_src (s : State) (r : RegId) (v : Word) : (s.writeReg r v).src = s.src := by cases r <;> rfl
@[simp] theorem State.writeReg_idx (s : State) (r : RegId) (v : Word) : (s.writeReg r v).idx = s.idx := by cases r <;> rfl
@[simp] theorem State.writeReg_comp (s : State) (r : RegId) (v : Word) : (s.writeReg r v).comp = s.comp := by cases r <;> rfl
@[simp] theorem State.writeReg_out (s : State) (r : RegId) (v : Word) : (s.writeReg r v).out = s.out := by cases r <;> rfl
@[simp] theorem State.writeReg_faults (s : State) (r : RegId) (v : Word) : (s.writeReg r v).faults = s.faults := by cases r <;> rfl
@[simp] theorem State.writeReg_pending (s : State) (r : RegId) (v : Word) : (s.writeReg r v).pending = s.pending := by cases r <;> rfl
@[simp] theorem State.writeReg_turns (s : State) (r : RegId) (v : Word) : (s.writeReg r v).turns = s.turns := by cases r <;> rfl
@[simp] theorem State.writeReg_replies (s : State) (r : RegId) (v : Word) : (s.writeReg r v).replies = s.replies := by cases r <;> rfl
@[simp] theorem State.writeReg_draws (s : State) (r : RegId) (v : Word) : (s.writeReg r v).draws = s.draws := by cases r <;> rfl
@[simp] theorem State.writeReg_buf (s : State) (r : RegId) (v : Word) (i : BufId) : (s.writeReg r v).buf i = s.buf i := by cases r <;> cases i <;> rfl

/-! ### status and latches -/

@[simp] theorem Status.cleared_done (t : Status) : t.cleared.done = false := rfl
@[simp] theorem Status.cleared_err (t : Status) : t.cleared.err = false := rfl
@[simp] theorem Status.cleared_haz (t : Status) : t.cleared.haz = t.haz := rfl
@[simp] theorem Status.cleared_errCode (t : Status) : t.cleared.errCode = 0 := rfl
@[simp] theorem Status.completed_done (t : Status) : t.completed.done = true := rfl
@[simp] theorem Status.completed_err (t : Status) : t.completed.err = t.err := rfl
@[simp] theorem Status.completed_haz (t : Status) : t.completed.haz = t.haz := rfl
@[simp] theorem Status.completed_errCode (t : Status) : t.completed.errCode = t.errCode := rfl
@[simp] theorem Status.errored_done (t : Status) (e : ErrCode) : (t.errored e).done = false := rfl
@[simp] theorem Status.errored_err (t : Status) (e : ErrCode) : (t.errored e).err = true := rfl
@[simp] theorem Status.errored_haz (t : Status) (e : ErrCode) : (t.errored e).haz = t.haz := rfl
@[simp] theorem Status.errored_errCode (t : Status) (e : ErrCode) : (t.errored e).errCode = errCodeBits e := rfl
@[simp] theorem Status.hazarded_done (t : Status) : t.hazarded.done = t.done := rfl
@[simp] theorem Status.hazarded_err (t : Status) : t.hazarded.err = t.err := rfl
@[simp] theorem Status.hazarded_haz (t : Status) : t.hazarded.haz = true := rfl
@[simp] theorem Status.hazarded_errCode (t : Status) : t.hazarded.errCode = t.errCode := rfl

theorem State.busy_eq_true {s : State} : s.busy = true ↔ ∃ l, s.engine = .busy l := by
  unfold State.busy; split <;> simp_all

theorem State.busy_eq_false {s : State} : s.busy = false ↔ s.engine = .idle := by
  unfold State.busy; split <;> simp_all

theorem State.latch_of_busy {s : State} {l : Latch} (h : s.engine = .busy l) : s.latch = l := by
  simp [State.latch, h]

theorem State.fetched_of_busy {s : State} {l : Latch} (h : s.engine = .busy l) :
    s.fetched = match decode l.word with
      | .ok i => .command i
      | .error e => .illegal e := by
  cases s; cases h; rfl

end Sys2Proof.Machine
end

