-- ==== Sys2Proof/Laws/Ops.lean ====
section
/-! SUPPORT. One lemma per shared operation that says everything it can do, to be cited instead of unfolding it. -/

namespace Sys2Proof.Machine

/-! ### the dimension check -/

theorem dimsOk_iff (c : Config) (w h : Nat) :
    dimsOk c w h = true ↔ w ∈ c.widthSet ∧ 1 ≤ h ∧ h ≤ c.maxH := by
  simp [dimsOk, and_assoc]

theorem withDims_ok {s : State} {run : Nat → Nat → Outcome State}
    (h : dimsOk s.cfg s.latchedW s.latchedH = true) : withDims s run = run s.latchedW s.latchedH := by
  rw [withDims, if_pos h]

theorem withDims_bad {s : State} {run : Nat → Nat → Outcome State}
    (h : dimsOk s.cfg s.latchedW s.latchedH = false) : withDims s run = .next (s.raiseErr .dim) := by
  rw [withDims, if_neg (by simp [h])]

theorem dims_true {s : State} (h : s.latchedW ∈ s.cfg.widthSet ∧ 1 ≤ s.latchedH ∧ s.latchedH ≤ s.cfg.maxH) :
    dimsOk s.cfg s.latchedW s.latchedH = true := (dimsOk_iff _ _ _).2 h

theorem dims_false {s : State} (h : ¬(s.latchedW ∈ s.cfg.widthSet ∧ 1 ≤ s.latchedH ∧ s.latchedH ≤ s.cfg.maxH)) :
    dimsOk s.cfg s.latchedW s.latchedH = false := by
  rw [← Bool.not_eq_true, dimsOk_iff]; exact h

/-! ### the checks that scan a region -/

theorem indexBad_iff (m : Memory) (n : Nat) :
    indexBad m n = true ↔ ∃ k < n, ∃ b, m.read k = some b ∧ 15 < b.toNat := by
  simp only [indexBad, List.any_eq_true, List.mem_range]
  refine exists_congr fun k => and_congr_right fun _ => ?_
  cases m.read k <;> simp

theorem indexUninit_iff (m : Memory) (n : Nat) : indexUninit m n = true ↔ ∃ k < n, m.read k = none := by
  simp [indexUninit]

theorem srcPixel_eq_none (m : Memory) (k : Nat) : srcPixel m k = none ↔ ∃ c < 3, m.read (4 * k + c) = none := by
  constructor
  · intro h
    by_contra hc
    push Not at hc
    have h0 := hc 0 (by omega); have h1 := hc 1 (by omega); have h2 := hc 2 (by omega)
    obtain ⟨r, hr⟩ := Option.ne_none_iff_exists'.1 h0
    obtain ⟨g, hg⟩ := Option.ne_none_iff_exists'.1 h1
    obtain ⟨b, hb⟩ := Option.ne_none_iff_exists'.1 h2
    rw [Nat.add_zero] at hr
    simp [srcPixel, hr, hg, hb] at h
  · rintro ⟨c, hc, h⟩
    have : c = 0 ∨ c = 1 ∨ c = 2 := by omega
    rcases this with rfl | rfl | rfl
    · rw [Nat.add_zero] at h; simp [srcPixel, h]
    · simp only [srcPixel, h]; cases m.read (4 * k) <;> rfl
    · simp only [srcPixel, h]; cases m.read (4 * k) <;> cases m.read (4 * k + 1) <;> rfl

theorem quantUninit_iff (m : Memory) (n : Nat) :
    quantUninit m n = true ↔ ∃ k < n, ∃ c < 3, m.read (4 * k + c) = none := by
  simp only [quantUninit, List.any_eq_true, List.mem_range, Option.isNone_iff_eq_none, srcPixel_eq_none]

/-! ### what each shared frame of a command answers -/

theorem execQuant_cases (s : State) :
    (dimsOk s.cfg s.latchedW s.latchedH = false ∧ execQuant s = .next (s.raiseErr .dim)) ∨
    (dimsOk s.cfg s.latchedW s.latchedH = true ∧
      execQuant s = .next (s.finish .idx (quantBytes s.cfg s.src s.draws (s.latchedW * s.latchedH))
        (quantUninit s.src (s.latchedW * s.latchedH)))) := by
  cases h : dimsOk s.cfg s.latchedW s.latchedH
  · exact .inl ⟨rfl, withDims_bad h⟩
  · exact .inr ⟨rfl, withDims_ok h⟩

theorem runEnc_cases (s : State) (at_ : Nat → Nat → Nat → Nat → Option Byte) :
    (dimsOk s.cfg s.latchedW s.latchedH = false ∧ runEnc s at_ = .next (s.raiseErr .dim)) ∨
    (dimsOk s.cfg s.latchedW s.latchedH = true ∧ indexBad s.idx (s.latchedW * s.latchedH) = true ∧
      runEnc s at_ = .next (s.raiseErr .index)) ∨
    (dimsOk s.cfg s.latchedW s.latchedH = true ∧ indexBad s.idx (s.latchedW * s.latchedH) = false ∧
      runEnc s at_ = .next (s.finish .comp
        (encBytes (at_ s.latchedW) s.draws s.latchedW (2 * s.latchedW * s.latchedH))
        (indexUninit s.idx (s.latchedW * s.latchedH)))) := by
  cases h : dimsOk s.cfg s.latchedW s.latchedH
  · exact .inl ⟨rfl, withDims_bad h⟩
  · cases hi : indexBad s.idx (s.latchedW * s.latchedH)
    · exact .inr (.inr ⟨rfl, rfl, by rw [runEnc, withDims_ok h]; simp [hi]⟩)
    · exact .inr (.inl ⟨rfl, rfl, by rw [runEnc, withDims_ok h]; simp [hi]⟩)

theorem runDec_cases (s : State) (me : Method) (mo : Mode) :
    (dimsOk s.cfg s.latchedW s.latchedH = false ∧ runDec s me mo = .next (s.raiseErr .dim)) ∨
    (dimsOk s.cfg s.latchedW s.latchedH = true ∧
      runDec s me mo = .next (s.finish .out
        (decBytes s.cfg s.latch me mo s.comp s.draws s.latchedW s.latchedH)
        (decUninit s.cfg me s.comp s.latchedW s.latchedH))) := by
  cases h : dimsOk s.cfg s.latchedW s.latchedH
  · exact .inl ⟨rfl, withDims_bad h⟩
  · exact .inr ⟨rfl, withDims_ok h⟩

theorem runAcc_of_zero {s : State} (h : s.cfg.accSubpixel = 0) (mo : Mode) :
    runAcc s mo = runDec s .accurate mo := by rw [runAcc, if_pos h]

theorem runAcc_of_nonzero {s : State} (h : s.cfg.accSubpixel ≠ 0) (mo : Mode) :
    runAcc s mo = .refused .subpixelShift := by rw [runAcc, if_neg h]

/-- Everything a command can answer: an accurate DEC refused under a sub-pixel shift, an error, a raster written, or
one of the two control commands. -/
theorem exec_cases (i : Instr) (s : State) :
    (exec i s = .refused .subpixelShift ∧ s.cfg.accSubpixel ≠ 0) ∨
    (∃ e, exec i s = .next (s.raiseErr e)) ∨
    (∃ d bytes u, exec i s = .next (s.finish d bytes u)) ∨
    exec i s = .next s.complete ∨
    exec i s = .next s.toIdle.resetRegisters := by
  have dec : ∀ me mo, (∃ e, runDec s me mo = .next (s.raiseErr e)) ∨
      (∃ d bytes u, runDec s me mo = .next (s.finish d bytes u)) := fun me mo => by
    rcases runDec_cases s me mo with ⟨-, h⟩ | ⟨-, h⟩
    · exact .inl ⟨_, h⟩
    · exact .inr ⟨_, _, _, h⟩
  have acc : ∀ mo, (runAcc s mo = .refused .subpixelShift ∧ s.cfg.accSubpixel ≠ 0) ∨
      (∃ e, runAcc s mo = .next (s.raiseErr e)) ∨
      (∃ d bytes u, runAcc s mo = .next (s.finish d bytes u)) := fun mo => by
    by_cases h : s.cfg.accSubpixel = 0
    · rw [runAcc_of_zero h]; exact .inr (dec _ _)
    · exact .inl ⟨runAcc_of_nonzero h mo, h⟩
  have enc : ∀ at_, (∃ e, runEnc s at_ = .next (s.raiseErr e)) ∨
      (∃ d bytes u, runEnc s at_ = .next (s.finish d bytes u)) := fun at_ => by
    rcases runEnc_cases s at_ with ⟨-, h⟩ | ⟨-, -, h⟩ | ⟨-, -, h⟩
    · exact .inl ⟨_, h⟩
    · exact .inl ⟨_, h⟩
    · exact .inr ⟨_, _, _, h⟩
  cases i with
  | nop => exact .inr (.inr (.inr (.inl rfl)))
  | srst => exact .inr (.inr (.inr (.inr rfl)))
  | quant =>
    rcases execQuant_cases s with ⟨-, h⟩ | ⟨-, h⟩
    · exact .inr (.inl ⟨_, h⟩)
    · exact .inr (.inr (.inl ⟨_, _, _, h⟩))
  | encI => rcases enc (encIAt s.cfg s.idx) with h | h; exacts [.inr (.inl h), .inr (.inr (.inl h))]
  | encF => rcases enc (encFAt s.cfg s.idx) with h | h; exacts [.inr (.inl h), .inr (.inr (.inl h))]
  | decFastRgb => rcases dec .fast .rgb with h | h; exacts [.inr (.inl h), .inr (.inr (.inl h))]
  | decFastLuma => rcases dec .fast .luma with h | h; exacts [.inr (.inl h), .inr (.inr (.inl h))]
  | decFastChroma => rcases dec .fast .chroma with h | h; exacts [.inr (.inl h), .inr (.inr (.inl h))]
  | decAccRgb => rcases acc .rgb with h | h | h; exacts [.inl h, .inr (.inl h), .inr (.inr (.inl h))]
  | decAccLuma => rcases acc .luma with h | h | h; exacts [.inl h, .inr (.inl h), .inr (.inr (.inl h))]
  | decAccChroma => rcases acc .chroma with h | h | h; exacts [.inl h, .inr (.inl h), .inr (.inr (.inl h))]

/-! ### the bytes each command writes -/

@[simp] theorem length_quantBytes (c : Config) (src : Memory) (d n : Nat) : (quantBytes c src d n).length = n := by
  simp [quantBytes]

@[simp] theorem length_encBytes (at_ : Nat → Nat → Nat → Option Byte) (d w n : Nat) :
    (encBytes at_ d w n).length = n := by simp [encBytes]

theorem getElem?_quantBytes (c : Config) (src : Memory) (d : Nat) {n k : Nat} (h : k < n) :
    (quantBytes c src d n)[k]? = some ((quantAt c src k).getD (drawIndex d k)) := by
  simp [quantBytes, h]

theorem getElem?_encBytes (at_ : Nat → Nat → Nat → Option Byte) (d w : Nat) {n o : Nat} (h : o < n) :
    (encBytes at_ d w n)[o]? =
      some ((at_ (colOf (2 * w) o / 2) (rowOf (2 * w) o) (o % 2)).getD (drawAt d o)) := by
  simp [encBytes, h]

/-- A list made of equal blocks of `b` elements, by place. -/
theorem getElem?_flatMap_range {α : Type} (b : Nat) (f : Nat → List α) (hf : ∀ k, (f k).length = b)
    (n : Nat) {k i : Nat} (hk : k < n) (hi : i < b) :
    ((List.range n).flatMap f)[b * k + i]? = (f k)[i]? := by
  have len : ∀ m, ((List.range m).flatMap f).length = b * m := fun m => by
    simp [List.length_flatMap, hf, Nat.mul_comm]
  induction n with
  | zero => omega
  | succ n ih =>
    rw [List.range_succ, List.flatMap_append]
    rcases Nat.lt_succ_iff_lt_or_eq.1 hk with h | rfl
    · rw [List.getElem?_append_left, ih h]
      rw [len]
      calc b * k + i < b * k + b := by omega
        _ = b * (k + 1) := (Nat.mul_succ b k).symm
        _ ≤ b * n := Nat.mul_le_mul_left b h
    · rw [List.getElem?_append_right (by rw [len]; omega), len]
      simp

@[simp] theorem length_pixelBytes (d k : Nat) (p : Vec3 (Option Byte)) : (pixelBytes d k p).length = 4 := rfl

@[simp] theorem length_decBytes (c : Config) (l : Latch) (me : Method) (mo : Mode) (comp : Memory) (d w h : Nat) :
    (decBytes c l me mo comp d w h).length = 4 * (w * h) := by
  simp [decBytes, List.length_flatMap, Nat.mul_comm]

/-- Byte `i` of pixel `k` of what a DEC command writes. -/
theorem getElem?_decBytes (c : Config) (l : Latch) (me : Method) (mo : Mode) (comp : Memory) (d w h : Nat)
    {k i : Nat} (hk : k < w * h) (hi : i < 4) :
    (decBytes c l me mo comp d w h)[4 * k + i]? =
      (pixelBytes d k (pixelOut c l me mo comp w h (colOf w k) (rowOf w k)))[i]? :=
  getElem?_flatMap_range 4 _ (fun _ => rfl) _ hk hi

/-! ### raster addressing -/

theorem colOf_cellAt {w x : Nat} (y : Nat) (h : x < w) : colOf w (cellAt w x y) = x := by
  simp [colOf, cellAt, Nat.mod_eq_of_lt h]

theorem rowOf_cellAt {w x : Nat} (y : Nat) (h : x < w) : rowOf w (cellAt w x y) = y := by
  rw [rowOf, cellAt, Nat.add_comm, Nat.add_mul_div_right _ _ (by omega), Nat.div_eq_of_lt h, Nat.zero_add]

theorem cellAt_lt {w h x y : Nat} (hx : x < w) (hy : y < h) : cellAt w x y < w * h := by
  have : (y + 1) * w ≤ h * w := Nat.mul_le_mul_right w hy
  rw [cellAt, Nat.mul_comm w h]
  rw [Nat.add_mul] at this
  omega

/-! ### the step -/

theorem access_cases (s : State) (addr : Word) (n : Nat) (go : Target → State) :
    (∃ t, target s.cfg addr n = .ok t ∧ access s addr n go = .next (go t)) ∨
    (∃ r, target s.cfg addr n = .error r ∧ access s addr n go = .refused r) := by
  unfold access
  cases h : target s.cfg addr n with
  | ok t => exact .inl ⟨t, rfl, rfl⟩
  | error r => exact .inr ⟨r, rfl, rfl⟩

/-- Everything a host move that has a next state can be. -/
theorem hostStep_next {s t : State} (h : hostStep s = .next t) :
    (s.pending = [] ∧ t = s) ∨
    (∃ addr n rest tg, s.pending = .read addr n :: rest ∧ target s.cfg addr n = .ok tg ∧
      t = hostRead s.popPending addr n tg) ∨
    (∃ addr n v rest tg, s.pending = .write addr n v :: rest ∧ target s.cfg addr n = .ok tg ∧
      t = hostWrite s.popPending n v tg) ∨
    (∃ rest, s.pending = .poll :: rest ∧ t = pollStep s) := by
  unfold hostStep at h
  split at h
  · cases h; exact .inl ⟨‹_›, rfl⟩
  · rename_i addr n rest hp
    rcases access_cases s addr n (hostRead s.popPending addr n) with ⟨tg, ht, ha⟩ | ⟨r, -, ha⟩
    · rw [ha] at h; cases h; exact .inr (.inl ⟨addr, n, rest, tg, hp, ht, rfl⟩)
    · rw [ha] at h; cases h
  · rename_i addr n v rest hp
    rcases access_cases s addr n (hostWrite s.popPending n v) with ⟨tg, ht, ha⟩ | ⟨r, -, ha⟩
    · rw [ha] at h; cases h; exact .inr (.inr (.inl ⟨addr, n, v, rest, tg, hp, ht, rfl⟩))
    · rw [ha] at h; cases h
  · cases h; exact .inr (.inr (.inr ⟨_, ‹_›, rfl⟩))

/-- Everything an engine move that has a next state can be. -/
theorem engineStep_next {s t : State} (h : engineStep s = .next t) :
    (s.engine = .idle ∧ t = s) ∨
    (∃ l e, s.engine = .busy l ∧ decode l.word = .error e ∧ t = s.raiseErr .illegal) ∨
    (∃ l i, s.engine = .busy l ∧ decode l.word = .ok i ∧ exec i s = .next t) := by
  cases he : s.engine with
  | idle => simp [engineStep, State.fetched, he] at h; exact .inl ⟨rfl, h.symm⟩
  | busy l =>
    cases hd : decode l.word with
    | error e => simp [engineStep, State.fetched, he, hd] at h; exact .inr (.inl ⟨l, e, rfl, hd, h.symm⟩)
    | ok i => simp [engineStep, State.fetched, he, hd] at h; exact .inr (.inr ⟨l, i, rfl, hd, h⟩)

theorem step_host {s : State} (h : s.nextAgent = .host) : step s = hostStep s.popTurn := by rw [step, h]

theorem step_engine {s : State} (h : s.nextAgent = .engine) : step s = engineStep s.popTurn := by rw [step, h]

end Sys2Proof.Machine
end

