-- ==== Sys2Proof/Laws/HostPort.lean ====
section
/-! SUPPORT. What the host's accesses do to a buffer, what an address can select, and what a step can be. -/

namespace Sys2Proof.Machine

/-! ### the bytes of a word and of a buffer -/

theorem wf_writeBytes {m : Memory} (hm : m.wf) (off n : Nat) (v : Word) : (writeBytes m off n v).wf := by
  unfold writeBytes
  induction List.range n generalizing m with
  | nil => exact hm
  | cons i l ih => exact ih (Memory.wf_write hm _ _)

/-- What a host write leaves: the word's bytes at the offsets it names, the old ones elsewhere. -/
theorem read_writeBytes (m : Memory) (off n : Nat) (v : Word) (a : Nat) :
    (writeBytes m off n v).read a = if off ≤ a ∧ a < off + n then some (byteOfWord v (a - off)) else m.read a := by
  unfold writeBytes
  induction n with
  | zero => rw [if_neg (by omega)]; rfl
  | succ n ih =>
    rw [List.range_succ, List.foldl_append, List.foldl_cons, List.foldl_nil, Memory.read_write, ih]
    split_ifs <;> first | rfl | omega | (subst_vars; congr 2; omega)

/-- Every buffer of the reset state is in canonical form (10_state.md R44: it lists nothing). -/
theorem wf_reset (b : BufId) : (State.reset.buf b).wf := by cases b <;> exact List.Pairwise.nil

/-! ### what an address selects -/

/-- What an access of a buffer says of its place. -/
theorem target_buf {c : Config} {addr : Word} {n : Nat} {b : BufId} {off : Nat}
    (h : target c addr n = .ok (.buf b off)) : off + n ≤ capacity c b ∧ (n = 1 ∨ n = 4) := by
  unfold target at h
  simp only at h
  split at h
  · cases h
  · split at h
    · split at h
      · cases h
      · split at h <;> cases h
    · split at h
      · cases h
      · split at h
        · cases h
        · split at h
          · cases h; exact ⟨‹_›, by omega⟩
          · cases h

/-- An access of a register is a word access. -/
theorem target_reg {c : Config} {addr : Word} {n : Nat} {r : RegId}
    (h : target c addr n = .ok (.reg r)) : n = 4 ∧ addr.toNat % 4 = 0 ∧ addr.toNat < 0x40 ∧ r = regAt addr.toNat := by
  unfold target at h
  simp only at h
  split at h
  · cases h
  · split at h
    · split at h
      · cases h
      · split at h
        · cases h
        · cases h; exact ⟨by omega, by omega, by assumption, rfl⟩
    · split at h
      · cases h
      · split at h
        · cases h
        · split at h <;> cases h

/-- A word access at a multiple of 4 in the register file selects the register there. -/
theorem target_regAt (c : Config) {addr : Word} (h : addr.toNat < 0x40) (h4 : addr.toNat % 4 = 0) :
    target c addr 4 = .ok (.reg (regAt addr.toNat)) := by simp [target, h, h4]

/-- The offsets past LUMA are reserved (10_state.md R22). -/
theorem regAt_reserved {off : Nat} (h : 0x1C ≤ off) : regAt off = .reserved := by
  unfold regAt; repeat' (rw [if_neg (by omega)])

/-- The buffer whose window holds an address is the one whose base it lies at or above by less than 1 MiB. -/
theorem windowOf_eq_some {a : Nat} {b : BufId} :
    windowOf a = some b ↔ bufBase b ≤ a ∧ a < bufBase b + 0x00100000 := by
  constructor
  · intro h
    simpa [inWindow] using List.find?_some h
  · rintro ⟨h1, h2⟩
    have : ∀ d, inWindow d a = decide (d = b) := by
      intro d
      rw [Bool.eq_iff_iff, inWindow, Bool.and_eq_true, decide_eq_true_iff, decide_eq_true_iff, decide_eq_true_iff]
      refine ⟨fun h => ?_, fun h => h ▸ ⟨h1, h2⟩⟩
      cases b <;> cases d <;> simp only [bufBase] at * <;> first | rfl | omega
    simp only [windowOf, List.find?, this]
    cases b <;> rfl

/-! ### what the host's accesses leave -/

theorem hostRead_buf (s : State) (addr : Word) (n : Nat) (t : Target) (b : BufId) :
    (hostRead s addr n t).buf b = s.buf b := by
  unfold hostRead readBusy readIdle
  split <;> split <;> simp

theorem pollStep_buf (s : State) (b : BufId) : (pollStep s).buf b = s.buf b := by
  unfold pollStep; split <;> simp

/-- A host write changes a buffer only where it has that buffer as its target and the engine is idle. -/
theorem hostWrite_buf (s : State) (n : Nat) (v : Word) (t : Target) (b : BufId) :
    (hostWrite s n v t).buf b = s.buf b ∨
    (s.busy = false ∧ ∃ off, t = .buf b off ∧ (hostWrite s n v t).buf b = writeBytes (s.buf b) off n v) := by
  unfold hostWrite
  cases hb : s.busy
  · cases t with
    | reg r => exact .inl (by simp [writeIdle])
    | buf d off =>
      by_cases h : b = d
      · subst h; exact .inr ⟨rfl, off, rfl, by simp [writeIdle]⟩
      · exact .inl (by simp [writeIdle, State.buf_setBuf_other _ _ h])
  · exact .inl (by simp)

/-! ### the step -/

/-- A step that has a next state is the host's move or the engine's. -/
theorem step_cases {s t : State} (h : step s = .next t) :
    (s.nextAgent = .host ∧ hostStep s.popTurn = .next t) ∨
    (s.nextAgent = .engine ∧ engineStep s.popTurn = .next t) := by
  cases hn : s.nextAgent
  · rw [step_host hn] at h; exact .inl ⟨rfl, h⟩
  · rw [step_engine hn] at h; exact .inr ⟨rfl, h⟩

/-- A command leaves the engine idle. -/
theorem exec_idle {s t : State} {i : Instr} (h : exec i s = .next t) : t.engine = .idle := by
  rcases exec_cases i s with ⟨h', -⟩ | ⟨e, h'⟩ | ⟨d, b, u, h'⟩ | h' | h' <;> rw [h'] at h <;> cases h <;> simp

/-- No step ends in a fault. -/
theorem step_ne_fault (s : State) (f : Fault) : step s ≠ .fault f := by
  cases hn : s.nextAgent
  · rw [step_host hn]
    unfold hostStep
    split
    · simp
    · rcases access_cases s.popTurn _ _ (hostRead s.popTurn.popPending _ _) with ⟨t, -, h⟩ | ⟨r, -, h⟩ <;>
        rw [h] <;> simp
    · rcases access_cases s.popTurn _ _ (hostWrite s.popTurn.popPending _ _) with ⟨t, -, h⟩ | ⟨r, -, h⟩ <;>
        rw [h] <;> simp
    · simp
  · rw [step_engine hn]
    unfold engineStep
    split
    · simp
    · simp
    · rename_i i _
      rcases exec_cases i s.popTurn with ⟨h, -⟩ | ⟨e, h⟩ | ⟨d, b, u, h⟩ | h | h <;> rw [h] <;> simp

end Sys2Proof.Machine
end

