-- ==== Sys2Proof/Laws/PerInstr.lean ====
section
/-! SUPPORT. Facts stated of every command, one lemma per command. -/

namespace Sys2Proof.Laws.RoundTrip

/-- The decoder reads each command's word as that command (30_encoding.md R87, R88). -/
def Statement (i : Instr) : Prop := decode (encode i) = .ok i

theorem nop : Statement .nop := rfl
theorem quant : Statement .quant := rfl
theorem encI : Statement .encI := rfl
theorem encF : Statement .encF := rfl
theorem decFastRgb : Statement .decFastRgb := rfl
theorem decFastLuma : Statement .decFastLuma := rfl
theorem decFastChroma : Statement .decFastChroma := rfl
theorem decAccRgb : Statement .decAccRgb := rfl
theorem decAccLuma : Statement .decAccLuma := rfl
theorem decAccChroma : Statement .decAccChroma := rfl
theorem srst : Statement .srst := rfl

end Sys2Proof.Laws.RoundTrip
end

