-- ==== Sys2Proof/Laws/Raster.lean ====
section
/-! SUPPORT. What a raster command that completes leaves, and where a raster's samples have values. -/

namespace Sys2Proof.Machine

/-- Completing a raster command whose bytes are as many as its region (20_memory.md R68). -/
theorem finish_rasterDone (s : State) (dst : BufId) {bytes : List Byte} {n : Nat} (u : Bool) (h : bytes.length = n) :
    s.RasterDone (s.finish dst bytes u) dst n where
  cfg := by simp
  width := by simp
  height := by simp
  hue := by simp
  sat := by simp
  luma := by simp
  engine := by simp
  done := by simp
  err := by simp
  haz := by simp
  errCode := by simp
  others b hb off := by rw [State.finish_buf, if_neg hb]
  past off ho := by rw [State.finish_buf, if_pos rfl, Memory.read_overwrite, if_neg (by omega)]
  written off ho := by
    rw [State.finish_buf, if_pos rfl, Memory.read_overwrite, if_pos (by omega),
      List.getElem?_eq_getElem (by omega)]
    rfl
  pending := by simp
  turns := by simp
  replies := by simp

/-- A byte of the region a raster command wrote. -/
theorem finish_read (s : State) (dst : BufId) {bytes : List Byte} {off : Nat} (u : Bool) (h : off < bytes.length) :
    ((s.finish dst bytes u).buf dst).read off = bytes[off]? := by
  rw [State.finish_buf, if_pos rfl, Memory.read_overwrite, if_pos h]

/-! ### where the decoder's samples have values -/

theorem clampTo_lt {n : Nat} (h : 0 < n) (c : Int) : clampTo n c < n := by
  unfold clampTo; omega

/-- A sample of a wholly written raster has a value (42_decoder.md R164: no coordinate is out of range). -/
theorem sampleAt_isSome (f : FloatFmt) {comp : Memory} {w h : Nat} (hw : 0 < w) (hh : 0 < h)
    (hc : ∀ o < 2 * w * h, (comp.read o).isSome = true) (c r : Int) : (sampleAt f comp w h c r).isSome = true := by
  rw [sampleAt, Option.isSome_map, sampleByte]
  exact hc _ (cellAt_lt (clampTo_lt (by omega) c) (clampTo_lt hh r))

/-- A chain of steps that each have a value has one. -/
theorem foldlM_isSome {α β : Type} (f : β → α → Option β) (hf : ∀ b a, (f b a).isSome = true) (l : List α) (b : β) :
    (l.foldlM f b).isSome = true := by
  induction l generalizing b with
  | nil => rfl
  | cons a l ih =>
    obtain ⟨b', hb'⟩ := Option.isSome_iff_exists.1 (hf b a)
    rw [List.foldlM_cons, hb']
    exact ih b'

/-- The raw triple of a pixel of a wholly written raster has a value (42_decoder.md R167, R168). -/
theorem rawYiq_isSome (c : Config) (me : Method) {comp : Memory} {w h : Nat} (hw : 0 < w) (hh : 0 < h)
    (hc : ∀ o < 2 * w * h, (comp.read o).isSome = true) (x y : Nat) : (rawYiq c me comp w h x y).isSome = true := by
  cases me with
  | fast =>
    have := foldlM_isSome (fastTap c comp w h x y)
      (fun b j => by rw [fastTap, Option.isSome_map]; exact sampleAt_isSome _ hw hh hc _ _)
      (List.range c.lit.fastN) zeroYiq
    obtain ⟨t, ht⟩ := Option.isSome_iff_exists.1 this
    rw [rawYiq, fastYiq, ht]
    rfl
  | accurate =>
    exact foldlM_isSome (accTap c comp w h x y)
      (fun b j => by rw [accTap, Option.isSome_map]; exact sampleAt_isSome _ hw hh hc _ _) _ _

/-! ### the DEC commands -/

theorem exec_decOf {s : State} {me : Method} (mo : Mode) (h : me = .accurate → s.cfg.accSubpixel = 0) :
    exec (decOf me mo) s = runDec s me mo := by
  cases me
  · cases mo <;> rfl
  · cases mo <;> exact runAcc_of_zero (h rfl) _

/-- What a DEC command on legal dimensions answers (42_decoder.md R176). -/
theorem exec_decOf_ok {s : State} {me : Method} (mo : Mode) (h : me = .accurate → s.cfg.accSubpixel = 0)
    (hd : s.DimsLegal) :
    exec (decOf me mo) s = .next (s.finish .out
      (decBytes s.cfg s.latch me mo s.comp s.draws s.latchedW s.latchedH)
      (decUninit s.cfg me s.comp s.latchedW s.latchedH)) := by
  rw [exec_decOf mo h, runDec, withDims_ok (dims_true hd)]

theorem decUninit_of_written {s : State} (me : Method) (hw : s.CompWritten) :
    decUninit s.cfg me s.comp s.latchedW s.latchedH = false := by
  rw [← Bool.not_eq_true, decUninit, List.any_eq_true]
  rintro ⟨k, hk, h⟩
  have hk := List.mem_range.1 hk
  have hpos : 0 < s.latchedW ∧ 0 < s.latchedH := by
    constructor <;> (apply Nat.pos_of_ne_zero; intro e; simp [e] at hk)
  have := rawYiq_isSome s.cfg me hpos.1 hpos.2 hw (colOf s.latchedW k) (rowOf s.latchedW k)
  rw [Option.isNone_iff_eq_none] at h
  simp [h] at this

/-- Byte `c` of output pixel (x, y) after a DEC command. -/
theorem read_decBytes (cfg : Config) (l : Latch) (me : Method) (mo : Mode) (comp m : Memory) (d w h : Nat)
    {x y c : Nat} (hx : x < w) (hy : y < h) (hc : c < 4) :
    (m.overwrite (decBytes cfg l me mo comp d w h)).read (4 * (y * w + x) + c) =
      (pixelBytes d (y * w + x) (pixelOut cfg l me mo comp w h x y))[c]? := by
  have hk : y * w + x < w * h := cellAt_lt hx hy
  have h1 : colOf w (y * w + x) = x := colOf_cellAt y hx
  have h2 : rowOf w (y * w + x) = y := rowOf_cellAt y hx
  rw [Memory.read_overwrite, if_pos (by rw [length_decBytes]; omega), getElem?_decBytes _ _ _ _ _ _ _ _ hk hc, h1, h2]

/-! ### the ENC commands -/

/-- What an ENC command on legal dimensions and indices answers (41_encoder.md R130). -/
theorem runEnc_ok {s : State} (at_ : Nat → Nat → Nat → Nat → Option Byte) (hd : s.DimsLegal)
    (hi : indexBad s.idx (s.latchedW * s.latchedH) = false) :
    runEnc s at_ = .next (s.finish .comp
      (encBytes (at_ s.latchedW) s.draws s.latchedW (2 * s.latchedW * s.latchedH))
      (indexUninit s.idx (s.latchedW * s.latchedH))) := by
  rw [runEnc, withDims_ok (dims_true hd), if_neg (by simp [hi])]

theorem indexBad_of_legal {s : State} (h : s.IdxLegal) : indexBad s.idx (s.latchedW * s.latchedH) = false := by
  rw [← Bool.not_eq_true, indexBad_iff]
  rintro ⟨k, hk, b, hb, h15⟩
  have := h k hk
  simp [hb] at this
  omega

theorem indexUninit_of_legal {s : State} (h : s.IdxLegal) :
    indexUninit s.idx (s.latchedW * s.latchedH) = false := by
  rw [← Bool.not_eq_true, indexUninit_iff]
  rintro ⟨k, hk, hb⟩
  have := h k hk
  simp [hb] at this

/-- Sample `h` of pixel (x, y) after an ENC command, if it has a value. -/
theorem read_encBytes (at_ : Nat → Nat → Nat → Option Byte) (m : Memory) (d : Nat) {w ht x y h : Nat} {b : Byte}
    (hx : x < w) (hy : y < ht) (hh : h < 2) (hb : at_ x y h = some b) :
    (m.overwrite (encBytes at_ d w (2 * w * ht))).read (y * (2 * w) + (2 * x + h)) = some b := by
  have hx2 : 2 * x + h < 2 * w := by omega
  have hk : y * (2 * w) + (2 * x + h) < 2 * w * ht := cellAt_lt hx2 hy
  have h1 : colOf (2 * w) (y * (2 * w) + (2 * x + h)) = 2 * x + h := colOf_cellAt y hx2
  have h2 : rowOf (2 * w) (y * (2 * w) + (2 * x + h)) = y := rowOf_cellAt y hx2
  have h3 : (y * (2 * w) + (2 * x + h)) % 2 = h := by
    rw [show y * (2 * w) + (2 * x + h) = h + 2 * (y * w + x) by ring, Nat.add_mul_mod_self_left]; omega
  rw [Memory.read_overwrite, if_pos (by rw [length_encBytes]; exact hk), getElem?_encBytes _ _ _ hk, h1, h2, h3,
    show (2 * x + h) / 2 = x by omega, hb]
  rfl

end Sys2Proof.Machine
end

