-- ==== Sys2Proof/Tests/Slice0.lean ====
section
/-! SUPPORT. Tests on small states. Expected values are the spec's own (95_test_vectors.md unless said otherwise), and
`witness_<Statement>` shows a state that meets the hypotheses of the statement of that name. -/

namespace Sys2Proof.Machine.Tests

/-! ### decoding: words written out from 30_encoding.md R81: RSVD, MODE, METHOD, P, OP -/

theorem test_decode_nop : decode (0b00000000000000000000000#23 ++ 0b00#2 ++ 0b00#2 ++ 0b0#1 ++ 0b0000#4) = .ok .nop := by decide
theorem test_decode_quant : decode (0b00000000000000000000000#23 ++ 0b00#2 ++ 0b00#2 ++ 0b0#1 ++ 0b0001#4) = .ok .quant := by decide
theorem test_decode_encI : decode (0b00000000000000000000000#23 ++ 0b00#2 ++ 0b00#2 ++ 0b0#1 ++ 0b0010#4) = .ok .encI := by decide
theorem test_decode_encF : decode (0b00000000000000000000000#23 ++ 0b00#2 ++ 0b00#2 ++ 0b1#1 ++ 0b0010#4) = .ok .encF := by decide
theorem test_decode_decFastRgb : decode (0b00000000000000000000000#23 ++ 0b00#2 ++ 0b00#2 ++ 0b0#1 ++ 0b0011#4) = .ok .decFastRgb := by decide
theorem test_decode_decFastLuma : decode (0b00000000000000000000000#23 ++ 0b01#2 ++ 0b00#2 ++ 0b0#1 ++ 0b0011#4) = .ok .decFastLuma := by decide
theorem test_decode_decFastChroma : decode (0b00000000000000000000000#23 ++ 0b10#2 ++ 0b00#2 ++ 0b0#1 ++ 0b0011#4) = .ok .decFastChroma := by decide
theorem test_decode_decAccRgb : decode (0b00000000000000000000000#23 ++ 0b00#2 ++ 0b01#2 ++ 0b0#1 ++ 0b0011#4) = .ok .decAccRgb := by decide
theorem test_decode_decAccLuma : decode (0b00000000000000000000000#23 ++ 0b01#2 ++ 0b01#2 ++ 0b0#1 ++ 0b0011#4) = .ok .decAccLuma := by decide
theorem test_decode_decAccChroma : decode (0b00000000000000000000000#23 ++ 0b10#2 ++ 0b01#2 ++ 0b0#1 ++ 0b0011#4) = .ok .decAccChroma := by decide
theorem test_decode_srst : decode (0b00000000000000000000000#23 ++ 0b00#2 ++ 0b00#2 ++ 0b0#1 ++ 0b1111#4) = .ok .srst := by decide

/-- V52: the illegal words and why each is illegal. -/
theorem test_decode_illegal :
    [0x4, 0xE, 0x10, 0x11, 0x22, 0x82, 0x13, 0x43, 0xC3, 0x63, 0x183, 0x203, 0x80000000, 0x1F].map (decode ·) =
    [.error .reservedOp, .error .reservedOp, .error .unusedField, .error .unusedField, .error .unusedField,
      .error .unusedField, .error .unusedField, .error .reservedMethod, .error .reservedMethod,
      .error .reservedMethod, .error .reservedMode, .error .reservedBits, .error .reservedBits,
      .error .unusedField] := by decide

theorem test_mnemonic_case : Instr.ofMnemonic? "dec.Acc.luma" = some .decAccLuma := by decide +kernel

/-! ### the well-formedness checks, each refusing an ill-formed term -/

theorem test_wf_instr : Instr.all.all Instr.wellFormed = true := by decide
theorem test_wf_fields_rsvd : (⟨0x0, 0, 0, 0, 1⟩ : CmdFields).rsvdOk = false := by decide
theorem test_wf_fields_op : (⟨0x4, 0, 0, 0, 0⟩ : CmdFields).opOk = false := by decide
theorem test_wf_fields_p : (⟨0x3, 1, 0, 0, 0⟩ : CmdFields).pOk = false := by decide
theorem test_wf_fields_method :
    (⟨0x3, 0, 2, 0, 0⟩ : CmdFields).methodOk = false ∧ (⟨0x2, 0, 1, 0, 0⟩ : CmdFields).methodOk = false := by decide
theorem test_wf_fields_mode :
    (⟨0x3, 0, 0, 3, 0⟩ : CmdFields).modeOk = false ∧ (⟨0x2, 0, 0, 1, 0⟩ : CmdFields).modeOk = false := by decide
theorem test_wf_fields_whole : (⟨0x3, 0, 1, 2, 0⟩ : CmdFields).wellFormed = true := by decide
theorem test_wf_format : (⟨8, 24⟩ : FloatFmt).wellFormed = false ∧ binary32.wellFormed = true := by decide

/-! ### the fixture of 95_test_vectors.md section 2, and a raster of one row of four pixels -/

/-- Row 1 of the fixture, row 7, and rows of nothing. -/
def fixtureRow {α : Type} (zero one : α) : Fin 8 → Vector α 8
  | 1 => #v[one, one, one, one, zero, zero, zero, zero]
  | 7 => Vector.replicate 8 one
  | _ => Vector.replicate 8 zero

/-- The fixture's waveform tables; `EDGE` is set at (1, 0) and (1, 3) only. -/
def fixture : WaveTables :=
  .given (Vector.ofFn (fixtureRow 0x00000000 0x3F800000)) (Vector.ofFn (fixtureRow 0 255))
    ((Vector.replicate 8 (Vector.replicate 8 false)).set 1 #v[true, false, false, true, false, false, false, false])

/-- The default configuration with the fixture and rasters four pixels wide. -/
def cfg4 : Config := { defaultConfig with widthSet := [4], waves := fixture }

theorem test_wf_config : cfg4.wellFormed = true ∧ defaultConfig.wellFormed = true := by decide
theorem test_wf_config_sizes :
    ({ cfg4 with maxH := 410 } : Config).sizesOk = false ∧ ({ cfg4 with widthSet := [641] } : Config).sizesOk = false := by
  decide
theorem test_wf_config_unit :
    waveFOk 0x3F800000 (Vector.replicate 8 (Vector.replicate 8 0x3F800001)) = false := by decide
theorem test_wf_config_rows :
    waveRowsOk 0x3F800000 (Vector.replicate 8 (Vector.replicate 8 0)) (Vector.replicate 8 (Vector.replicate 8 0)) =
      false := by decide

/-- A command running on a 4×1 raster with these bytes in SRC, IDX and COMP and this HUE, SAT and LUMA. -/
def running (src idx comp : List Byte) (hue sat luma : Word) : State :=
  { State.reset with
    cfg := cfg4, width := 4, height := 1, hue := hue, sat := sat, luma := luma
    engine := .busy ⟨0, 4, 1, hue, sat, luma⟩
    src := cellsFrom 0 src, idx := cellsFrom 0 idx, comp := cellsFrom 0 comp }

/-- Run on IDX. -/
def onIdx (idx : List Byte) : State := running [] idx [] 0 0x3F800000 0x3F800000

/-- Run on a uniform COMP. -/
def onComp (level : Byte) : State := running [] [] (List.replicate 8 level) 0 0x3F800000 0x3F800000

/-- The bytes of a buffer after a command, and its STATUS. -/
def after (b : BufId) (o : Outcome State) : Option (List Byte × Word) :=
  match o with
  | .next t => some ((t.buf b).map (·.2), t.statusWord)
  | _ => none

/-! ### the commands -/

/-- V51. -/
theorem test_nop : after .out (step (State.reset.withFetchWord 32 0x0)) = some ([], 0x2) := by decide

/-- V57. -/
theorem test_srst :
    after .idx (exec .srst (onIdx [1])) = some ([1], 0x0) ∧
    (match exec .srst (onIdx [1]) with
     | .next t => [t.width, t.height] == [640, 0] && t.sat == 0x3F800000
     | _ => false) = true := by decide

/-- V12, V5, V14: a tie to the lower index, brown, grey, and a pixel whose alpha is unwritten. -/
theorem test_quant :
    after .idx (exec .quant (running [0, 0, 85, 9, 170, 85, 0, 9, 128, 128, 128, 9, 255, 255, 255] [] [] 0 0 0)) =
      some ([0, 6, 7, 15], 0x2) := by decide +kernel

/-- V16. -/
theorem test_quant_dim : after .idx (step (State.reset.withFetchWord 32 0x1)) = some ([], 0x24) := by decide

/-- V22: rows 7, 15, 8, 0 and 0, 1, 0, 0. -/
theorem test_encI :
    after .comp (exec .encI (onIdx [7, 15, 8, 0])) = some ([191, 191, 255, 255, 64, 64, 0, 0], 0x2) ∧
    after .comp (exec .encI (onIdx [0, 1, 0, 0])) = some ([0, 0, 191, 191, 0, 0, 0, 0], 0x2) := by decide +kernel

/-- V25. -/
theorem test_encI_index : after .comp (exec .encI (onIdx [0, 0, 0, 16])) = some ([], 0x34) := by decide +kernel

/-- V31, V32, V33: rising and falling edges, both borders, the bright zero. -/
theorem test_encF :
    after .comp (exec .encF (onIdx [1, 1, 0, 9])) = some ([153, 191, 191, 153, 0, 0, 63, 63], 0x2) ∧
    after .comp (exec .encF (onIdx [9, 0, 8, 7])) = some ([216, 255, 0, 0, 63, 63, 191, 191], 0x2) := by decide +kernel

/-- V34, V35: SAME_HUE drops the left border's rise; the other grouping marks an unflagged rise. -/
theorem test_encF_readings :
    after .comp (exec .encF { onIdx [1, 7, 0, 0] with cfg := { cfg4 with edgePrev := .none } }) =
      some ([191, 191, 191, 191, 0, 0, 0, 0], 0x2) ∧
    after .comp (exec .encF { onIdx [7, 15, 8, 0] with cfg := { cfg4 with edgeGroup := .fallingOnly } }) =
      some ([153, 191, 255, 255, 63, 63, 0, 0], 0x2) := by decide +kernel

/-- V40: L = 119, whose third pixel has a blue one less. -/
theorem test_decFastRgb :
    after .out (exec .decFastRgb (onComp 119)) =
      some ([119, 119, 119, 255, 119, 119, 119, 255, 119, 119, 118, 255, 119, 119, 119, 255], 0x2) := by decide +kernel

/-- V41: level 85 gives 84. -/
theorem test_decFastLuma :
    after .out (exec .decFastLuma (onComp 85)) =
      some ([84, 84, 84, 255, 84, 84, 84, 255, 84, 84, 84, 255, 84, 84, 84, 255], 0x2) := by decide +kernel

/-- V42. -/
theorem test_decFastChroma :
    after .out (exec .decFastChroma (onComp 200)) =
      some ([127, 127, 0, 255, 127, 127, 0, 255, 127, 127, 0, 255, 127, 127, 0, 255], 0x2) := by decide +kernel

/-- V44, L = 255. -/
theorem test_decAccRgb :
    after .out (exec .decAccRgb (onComp 255)) =
      some ([255, 254, 41, 255, 255, 165, 255, 255, 172, 255, 255, 255, 135, 255, 108, 255], 0x2) := by decide +kernel

/-- V47: HUE = π/2 on L = 64. -/
theorem test_decAccRgb_hue :
    after .out (exec .decAccRgb (running [] [] (List.replicate 8 64) 0x3FC90FDB 0x3F800000 0x3F800000)) =
      some ([93, 41, 100, 255, 43, 64, 117, 255, 34, 86, 27, 255, 84, 63, 10, 255], 0x2) := by decide +kernel

/-- V43: level 3 gives 2. -/
theorem test_decAccLuma :
    after .out (exec .decAccLuma (onComp 3)) =
      some ([2, 2, 2, 255, 2, 2, 2, 255, 2, 2, 2, 255, 2, 2, 2, 255], 0x2) := by decide +kernel

/-- V44, L = 255. -/
theorem test_decAccChroma :
    after .out (exec .decAccChroma (onComp 255)) =
      some ([255, 0, 0, 255, 255, 255, 0, 255, 0, 255, 0, 255, 0, 0, 0, 255], 0x2) := by decide +kernel

/-- U10. -/
theorem test_decAcc_shift :
    after .out (exec .decAccLuma { onComp 255 with cfg := { cfg4 with accSubpixel := 1 } }) = none := by decide +kernel

/-! ### numbers -/

/-- V46: the trigonometry of π/2 and π as binary32, and 10_state.md R38: 0.80 is the float nearest 4/5. -/
theorem test_trig :
    trigCos cfg4 0x3FC90FDB = ofBits binary32 0xB33BBD2E ∧ trigSin cfg4 0x3FC90FDB = ofBits binary32 0x3F800000 ∧
    trigSin cfg4 0x40490FDB = ofBits binary32 0xB3BBBD2E ∧ trigCos cfg4 0x7F800000 = .nan := by decide +kernel

theorem test_literals :
    roundFl binary32 false (4 * oneMag binary32) 5 = ofBits binary32 sourceLiterals.edgeAtten ∧
    roundFl binary32 false (956 * oneMag binary32) 1000 = ofBits binary32 yiq2rgb.x.y ∧
    roundFl binary32 true (272 * oneMag binary32) 1000 = ofBits binary32 yiq2rgb.y.y ∧
    ofNatFl binary32 40 = ofBits binary32 sourceLiterals.chromaGain := by decide +kernel

/-- 42_decoder.md R161: its formula gives the printed weights. -/
theorem test_fir_formula :
    (firFormula binary32 30 1 8).drop 22 = (fir30.drop 22).map (ofBits binary32) ∧
    firFormula binary32 15 1 8 = fir15.map (ofBits binary32) := by decide +kernel

/-- 10_state.md R39, V4A: infinities clamp, a NaN is a draw. -/
theorem test_clampByte :
    [Fl.inf false, .inf true, .fin true 0, .nan].map (clampByte binary32) = [some 255, some 0, some 0, none] := by
  decide +kernel

/-! ### the host -/

/-- V58, program P6 schedule B: a write and an SRST in the busy window are discarded and set HAZ; the command completes. -/
theorem test_busy_window :
    (match Host.Core.run Sys2Proof.core 5 { onIdx [0, 0, 0, 0] with
        engine := .busy ⟨encode .encI, 4, 1, 0, 0, 0⟩, turns := [.host, .host, .host, .engine]
        pending := [wr .height 2, cmdOp .srst, .poll] } with
      | .next t => t.replies.map (·.value) == [0xA, 0x9] && t.comp.length == 8 && t.height == 1 && !t.busy
      | _ => false) = true := by decide +kernel

/-- V59: the refused accesses. -/
theorem test_refused :
    [target cfg4 0x4 1, target cfg4 0x100002 4, target cfg4 0x500000 4, target cfg4 0x100000 2,
      target cfg4 0x1FA000 1].map (·.toOption) = [none, none, none, none, none] := by decide +kernel

/-! ### witnesses: states that meet the hypotheses of the statements -/

/-- The outcome is a next state. -/
def ran (o : Outcome State) : Bool :=
  match o with
  | .next _ => true
  | _ => false

/-- A word latched on a 4×1 raster, with this schedule and host program. -/
def latched (word : Word) (turns : List Agent) (pending : List HostOp) : State :=
  { onIdx [1, 2, 3, 15] with engine := .busy ⟨word, 4, 1, 0, 0, 0⟩, turns := turns, pending := pending }

/-- An idle engine with this host program. -/
def idleWith (pending : List HostOp) : State := { State.reset with pending := pending }

/-- SRC with three pixels' channels and no alpha at the end. -/
def onSrc : State := running [1, 2, 3, 0, 4, 5, 6, 0, 7, 8, 9, 0, 10, 11, 12] [] [] 0 0 0

theorem witness_IllegalWordEndsWithErrIllegal :
    decode 0x4 = .error .reservedOp ∧ decode 0x80000000 = .error .reservedBits ∧
    (latched 0x4 [] []).nextAgent = .engine ∧ (latched 0x80000000 [.engine] []).nextAgent = .engine := by decide

theorem witness_StepRunsDecodedCommand :
    decode 0x2 = .ok .encI ∧ (latched 0x2 [] []).nextAgent = .engine := by decide

theorem witness_CmdWriteIssuesCommand :
    let s := idleWith [.write 0x0 4 0xFFFFFFFF]
    s.engine = .idle ∧ s.nextAgent = .host ∧ s.pending = .write 0x00000000 4 0xFFFFFFFF :: [] := by decide

theorem witness_IssuedCommandCompletes :
    let s := latched 0x1 [.host, .host] [rd .status, .poll]
    s.busy = true ∧ s.cfg.accSubpixel = 0 ∧ ∀ op ∈ s.pending, opHasStep s.cfg op := by
  refine ⟨by decide, by decide, ?_⟩
  intro op h
  rcases List.mem_cons.1 h with rfl | h
  · exact ⟨.reg .status, by decide⟩
  · rcases List.mem_singleton.1 h with rfl; trivial

/-- A latched command's STATUS is legal. -/
theorem statusInv_latched (word : Word) (turns : List Agent) (pending : List HostOp) :
    (latched word turns pending).StatusInv := by constructor <;> simp [latched, onIdx, running, State.reset]

theorem witness_CommandEndsDoneOrErr :
    (latched 0x2 [] []).StatusInv ∧ (latched 0x2 [] []).busy = true ∧
    ran (exec .encI (latched 0x2 [] [])) = true ∧ ran (exec .srst (latched 0x2 [] [])) = true :=
  ⟨statusInv_latched _ _ _, by decide +kernel⟩

/-- A running ENC.I, whose state has the invariant and whose step has a next state. -/
theorem witness_StepKeepsInv : (latched 0x2 [] []).Inv ∧ ran (step (latched 0x2 [] [])) = true := by
  refine ⟨⟨by decide, ⟨by decide, by decide, by decide, by decide⟩, ?_, statusInv_latched _ _ _⟩, by decide +kernel⟩
  have idx : ∀ off, 256000 ≤ off → (latched 0x2 [] []).idx.read off = none := fun off h => by
    show Memory.read (cellsFrom 0 [1, 2, 3, 15]) off = none
    rw [read_cellsFrom, if_pos (Nat.zero_le _)]
    exact List.getElem?_eq_none (by simp; omega)
  intro b off h
  cases b
  · rfl
  · exact idx off h
  · rfl
  · rfl

theorem witness_WrittenBytesStayWritten :
    ran (step (latched 0x2 [] [])) = true ∧ (((latched 0x2 [] []).buf .idx).read 3).isSome = true := by decide +kernel

theorem witness_ConstantTablesNeverChange : ran (Host.Core.run Sys2Proof.core 2 (latched 0x2 [] [])) = true := by
  decide +kernel

theorem witness_FaultSetNeverShrinks :
    let s := { latched 0xF [] [] with faults := [.uninit] }
    ran (step s) = true ∧ Fault.uninit ∈ s.faults := by decide

/-- HAZ set by a write in the busy window, and kept by SRST. -/
theorem witness_HazIsStickyAndHarmless :
    (match step (latched 0x2 [.host] [wr .hue 1]) with
      | .next t => t.status.haz
      | _ => false) = true ∧
    (match step { latched 0xF [] [] with status := ⟨false, false, true, 0⟩ } with
      | .next t => t.status.haz
      | _ => false) = true := by decide

theorem witness_EngineChangesOnlyByIssueOrCompletion :
    ran (step (latched 0x2 [.host] [.poll])) = true ∧ (latched 0x2 [.host] [.poll]).busy = true ∧
    (idleWith [cmdOp .quant]).busy = false ∧
    (match step (idleWith [cmdOp .quant]) with
      | .next t => t.busy
      | _ => false) = true := by decide

theorem witness_SrstRestoresRegisters :
    let s := latched 0x2 [.host] [.write 0x0 4 (encode .srst)]
    s.busy = true ∧ s.nextAgent = .host ∧ s.pending = .write 0x00000000 4 (encode .srst) :: [] := by decide

/-- H = 0, H just above MAX_H, and a width outside WIDTH_SET. -/
theorem witness_IllegalDimsEndWithErrDim :
    ¬ ({ onIdx [] with engine := .busy ⟨0x2, 4, 0, 0, 0, 0⟩ } : State).DimsLegal ∧
    ¬ ({ onIdx [] with engine := .busy ⟨0x23, 4, 401, 0, 0, 0⟩ } : State).DimsLegal ∧
    ¬ ({ onIdx [] with engine := .busy ⟨0x1, 5, 1, 0, 0, 0⟩ } : State).DimsLegal ∧
    (onIdx []).cfg.accSubpixel = 0 := by decide

/-- The least illegal index at the last place of the raster. -/
theorem witness_IndexAbove15EndsWithErrIndex :
    (onIdx [0, 0, 0, 16]).DimsLegal ∧ 3 < (onIdx [0, 0, 0, 16]).latchedW * (onIdx [0, 0, 0, 16]).latchedH ∧
    (onIdx [0, 0, 0, 16]).idx.read 3 = some 16 ∧ 15 < (16 : Byte).toNat := by decide

theorem witness_SubpixelShiftRefusesAccurateOnly :
    ({ cfg4 with accSubpixel := 1 } : Config).accSubpixel ≠ 0 ∧
    ran (exec .decFastLuma { onComp 255 with cfg := { cfg4 with accSubpixel := 1 } }) = true := by decide +kernel

theorem witness_QuantizeIsLeastNearest :
    (⟨0, 0, 85⟩ : Vec3 Byte) ≠ ⟨0, 0, 0⟩ ∧ (⟨0, 0, 85⟩ : Vec3 Byte) ≠ ⟨255, 255, 255⟩ ∧
    (0 : Fin 16) < quantize palette ⟨0, 0, 171⟩ := by decide +kernel

theorem witness_QuantWritesIndices : onSrc.DimsLegal ∧ onSrc.SrcWritten ∧ onSrc.src.read 15 = none := by decide +kernel

/-- Two SRC contents that agree on the last pixel's channels only. -/
theorem witness_QuantReadsOnlyOwnRgb :
    let m := cellsFrom 0 [9, 9, 9, 9, 9, 9, 9, 9, 9, 9, 9, 9, 10, 11, 12, 77]
    onSrc.DimsLegal ∧ 3 < onSrc.latchedW * onSrc.latchedH ∧
    (∀ c < 3, onSrc.src.read (4 * 3 + c) = m.read (4 * 3 + c)) ∧
    ran (exec .quant onSrc) = true ∧ ran (exec .quant { onSrc with src := m }) = true := by decide +kernel

/-- A full cell with the intensity bit. -/
theorem witness_IntegerClampIsVacuous : cfg4.lit = sourceLiterals ∧ waveBCell cfg4 7 7 = 255 := by decide

theorem witness_EncIWritesSamples :
    (onIdx [0, 8, 7, 15]).DimsLegal ∧ (onIdx [0, 8, 7, 15]).IdxLegal := by decide +kernel

/-- The same state for every reading of EDGE_PREV; at x = 0 and x = 3 the outer neighbour is Black. -/
theorem witness_EncFWritesSamples :
    (onIdx [0, 8, 7, 15]).DimsLegal ∧ (onIdx [0, 8, 7, 15]).IdxLegal ∧
    (onIdx [0, 8, 7, 15]).idx.read 3 = some 15 ∧ (onIdx [0, 8, 7, 15]).idx.read 2 = some 7 ∧
    sampleF cfg4 7 true 7 (markedBy cfg4 7 7 (some (waveAt cfg4 7 6)) (waveAt cfg4 0 0)) = some 255 := by
  decide +kernel

theorem witness_FloatSampleOfExtremeCells :
    cfg4.floatFmt = binary32 ∧ cfg4.lit = sourceLiterals ∧ waveFCell cfg4 7 0 = 0x3F800000 ∧
    waveFCell cfg4 1 7 = 0x00000000 := by decide

theorem witness_IntensityNeverLowersSample :
    cfg4.floatFmt = binary32 ∧ cfg4.lit = sourceLiterals ∧ (waveFCell cfg4 7 0).toNat ≤ 0x3F800000 := by decide

theorem witness_WaveformRowsAsStated : cfg4.wellFormed = true ∧ defaultConfig.wellFormed = true := by decide

/-- One clause each: all of index 15, all of index 0. -/
theorem witness_UniformRastersEncode :
    (onIdx [15, 15, 15, 15]).DimsLegal ∧ (onIdx [15, 15, 15, 15]).cfg.wellFormed = true ∧
    (onIdx [15, 15, 15, 15]).cfg.lit = sourceLiterals ∧
    (∀ k < 4, (onIdx [15, 15, 15, 15]).idx.read k = some 15) ∧
    (onIdx [0, 0, 0, 0]).DimsLegal ∧ (∀ k < 4, (onIdx [0, 0, 0, 0]).idx.read k = some 0) := by decide

theorem witness_FirTablesAreTheFormula :
    let c := { cfg4 with fir := .formula 1 8 30 15 }
    c.floatFmt = binary32 ∧ c.fir = .formula 1 8 30 15 := by decide

theorem witness_FirSetsSumToOne : fir30.length = 30 ∧ fir15.length = 15 := by decide

/-- A sample of a uniform raster, wherever it is taken. -/
theorem sample_uniform (c r : Int) (h : clampTo 8 c < 8) :
    sampleAt binary32 (List.replicate 8 (255 : Byte) |> cellsFrom 0) 4 1 c r =
      some (sampleFl binary32 255) := by
  have hr : clampTo 1 r = 0 := by simp [clampTo]
  have hb : Memory.read (cellsFrom 0 (List.replicate 8 (255 : Byte))) (clampTo 8 c) = some 255 := by
    rw [read_cellsFrom, if_pos (Nat.zero_le _), Nat.sub_zero, List.getElem?_replicate, if_pos h]
  simp only [sampleAt, sampleByte, hr, cellAt, Nat.reduceMul, Nat.zero_mul, Nat.zero_add, hb, Option.map_some]

theorem witness_FastTripleIsBoxSum :
    cfg4.lit.fastN = 8 ∧
    ∀ j : Nat, j < 8 → sampleAt cfg4.floatFmt (onComp 255).comp 4 1 (2 * ((3 : Nat) : Int) + j + cfg4.fastOffset) (0 : Nat) =
      some (sampleFl binary32 255) :=
  ⟨by decide, fun _ _ => sample_uniform _ _ (by simp only [clampTo]; omega)⟩

theorem witness_AccurateTripleIsFirSum :
    ∀ k : Nat, k < (firA cfg4).length →
      sampleAt cfg4.floatFmt (onComp 255).comp 4 1 (2 * ((0 : Nat) : Int) + cfg4.accOffset + cfg4.accStride * k) (0 : Nat) =
        some (sampleFl binary32 255) :=
  fun _ _ => sample_uniform _ _ (by simp only [clampTo]; omega)

/-- The hypotheses of every statement of the DEC commands on written samples. -/
theorem witness_DecRgbWritesPixels :
    (onComp 200).DimsLegal ∧ (onComp 200).CompWritten ∧ (onComp 200).cfg.accSubpixel = 0 := by decide

theorem witness_DecLumaWritesPixels :
    (onComp 0).DimsLegal ∧ (onComp 0).CompWritten ∧ (onComp 0).cfg.accSubpixel = 0 := by decide

theorem witness_DecChromaWritesPixels :
    (onComp 255).DimsLegal ∧ (onComp 255).CompWritten ∧ (onComp 255).cfg.accSubpixel = 0 := by decide

/-- No sample of COMP is written. -/
theorem witness_AlphaIsOpaque :
    (onIdx []).DimsLegal ∧ (onIdx []).cfg.accSubpixel = 0 ∧ (onIdx []).comp.read 0 = none := by decide

/-- HUE, SAT and LUMA with a NaN, an infinity and a zero in the second command. -/
theorem witness_LumaAndChromaIgnoreParameters :
    let l : Latch := ⟨0, 4, 1, 0, 0x3F800000, 0x3F800000⟩
    Mode.luma ≠ .rgb ∧ Mode.chroma ≠ .rgb ∧ (onComp 9).engine = .busy l ∧
    ran (exec (decOf .fast .luma) (onComp 9)) = true ∧
    ran (exec (decOf .fast .luma)
      { onComp 9 with engine := .busy { l with hue := 0x7FC00000, sat := 0x7F800000, luma := 0 } }) = true := by
  decide +kernel

/-- Pixel 3 of a row of four does not read column 0 by the fast method; pixel 0 reads every column by the accurate
one. -/
theorem witness_TripleDependsOnItsWindow :
    cfg4.fastOffset = -4 ∧ cfg4.lit.fastN = 8 ∧ cfg4.accOffset = -15 ∧ cfg4.accStride = 1 ∧ (firA cfg4).length = 30 ∧
    (∀ j < 8, Memory.read (cellsFrom 0 [1, 0, 3, 4, 5, 6, 7, 8]) (0 * (2 * 4) + min (2 * 3 + j - 4) (2 * 4 - 1)) =
      Memory.read (cellsFrom 0 [9, 0, 3, 4, 5, 6, 7, 8]) (0 * (2 * 4) + min (2 * 3 + j - 4) (2 * 4 - 1))) ∧
    (∀ j < 30, Memory.read (cellsFrom 0 [1, 2, 3, 4, 5, 6, 7, 8]) (0 * (2 * 4) + min (2 * 0 + j - 15) (2 * 4 - 1)) =
      Memory.read (cellsFrom 0 [1, 2, 3, 4, 5, 6, 7, 8, 9]) (0 * (2 * 4) + min (2 * 0 + j - 15) (2 * 4 - 1))) := by
  decide

theorem witness_ZeroRowDecodesToBlack :
    cfg4.floatFmt = binary32 ∧ cfg4.phase = phase ∧ cfg4.fir = .given fir30 fir15 ∧ cfg4.lit = sourceLiterals ∧
    cfg4.chroma = .normalised ∧ ∀ col < 2 * 4, (onComp 0).comp.read (0 * (2 * 4) + col) = some 0 := by decide

theorem witness_WhiteRasterDecodesWhite :
    (onComp 255).DimsLegal ∧ (onComp 255).cfg.accSubpixel = 0 ∧ (onComp 255).cfg.floatFmt = binary32 ∧
    (onComp 255).cfg.phase = phase ∧ (onComp 255).cfg.fir = .given fir30 fir15 ∧ (onComp 255).cfg.lit = sourceLiterals ∧
    ∀ o < 2 * (onComp 255).latchedW * (onComp 255).latchedH, (onComp 255).comp.read o = some 255 := by decide

theorem witness_AdjustmentIsPrintedMatrix :
    defaultConfig.floatFmt = binary32 ∧ defaultConfig.trig = .nearest ∧ State.reset.latch.hue = 0x00000000 := by decide

/-- The last pixel's blue is unwritten. -/
theorem witness_QuantRecordsUninit :
    let s := running [1, 2, 3, 0, 4, 5, 6, 0, 7, 8, 9, 0, 10, 11] [] [] 0 0 0
    s.DimsLegal ∧ s.src.read (4 * 3 + 2) = none ∧ s.faults = [] := by decide

theorem witness_EncRecordsUninit :
    (onIdx [15, 0, 0]).DimsLegal ∧
    (∀ k < 4, ((onIdx [15, 0, 0]).idx.read k).all (fun b => decide (b.toNat ≤ 15)) = true) ∧
    (onIdx [15, 0, 0]).idx.read 3 = none := by decide

theorem witness_DecRecordsUninit :
    let s := running [] [] [1, 2, 3, 4, 5, 6, 7] 0 0 0
    s.DimsLegal ∧ s.cfg.accSubpixel = 0 ∧ s.cfg.fastOffset = -4 ∧ s.cfg.lit.fastN = 8 ∧ s.cfg.accOffset = -15 ∧
    s.cfg.accStride = 1 ∧ (firA s.cfg).length = 30 ∧ s.comp.read 7 = none := by decide

/-- A write and a read at any address, so at that of every clause; the last clause's at both ends of its range. -/
theorem witness_RegisterWritesStoreWritableBits :
    (∀ a : Word, (idleWith [.write a 4 0xFFFF0280]).engine = .idle ∧
      (idleWith [.write a 4 0xFFFF0280]).nextAgent = .host ∧
      (idleWith [.write a 4 0xFFFF0280]).pending = .write a 4 0xFFFF0280 :: []) ∧
    (∀ a : Word, (idleWith [.read a 4]).engine = .idle ∧ (idleWith [.read a 4]).nextAgent = .host ∧
      (idleWith [.read a 4]).pending = .read a 4 :: []) ∧
    (∀ a ∈ [(0x1C : Word), 0x3C], 0x1C ≤ a.toNat ∧ a.toNat ≤ 0x3C ∧ a.toNat % 4 = 0) :=
  ⟨fun _ => ⟨rfl, rfl, rfl⟩, fun _ => ⟨rfl, rfl, rfl⟩, by simp⟩

/-- WIDTH, HEIGHT, HUE, SAT and LUMA after a step, and the newest reply. -/
def registersAfter (s : State) : List Word :=
  match step s with
  | .next t => [t.width.setWidth 32, t.height.setWidth 32, t.hue, t.sat, t.luma] ++ (t.replies.map (·.value)).take 1
  | _ => []

/-- 10_state.md R22, R25 to R29: one write at each offset of the table, from the reset values. -/
theorem test_register_writes :
    [(0x04 : Word), 0x08, 0x0C, 0x10, 0x14, 0x18, 0x3C].map
        (fun a => registersAfter (idleWith [.write a 4 0xABCD0123])) =
      [[640, 0, 0, 0x3F800000, 0x3F800000], [0x123, 0, 0, 0x3F800000, 0x3F800000],
        [640, 0x123, 0, 0x3F800000, 0x3F800000], [640, 0, 0xABCD0123, 0x3F800000, 0x3F800000],
        [640, 0, 0, 0xABCD0123, 0x3F800000], [640, 0, 0, 0x3F800000, 0xABCD0123],
        [640, 0, 0, 0x3F800000, 0x3F800000]] := by decide +kernel

/-- 10_state.md R22: one read at each offset of the table. -/
theorem test_register_reads :
    [(0x00 : Word), 0x04, 0x08, 0x0C, 0x10, 0x14, 0x18, 0x3C].map
        (fun a => (registersAfter { idleWith [.read a 4] with
          height := 1, hue := 2, sat := 3, luma := 4, status := ⟨true, false, true, 0⟩ }).drop 5) =
      [[0], [0xA], [640], [1], [2], [3], [4], [0]] := by decide +kernel

/-- The last word and the last byte of SRC's capacity. -/
theorem witness_HostWriteThenReadBack :
    let s := idleWith [.write 0x001F9FFC 4 0xAABBCCDD, .read 0x001F9FFC 4]
    s.engine = .idle ∧ s.turns = [] ∧ target s.cfg 0x001F9FFC 4 = .ok (.buf .src 0xF9FFC) ∧
    target s.cfg 0x001F9FFF 1 = .ok (.buf .src 0xF9FFF) := by decide +kernel

/-- The first and last word of the register file, the first reserved one, the first byte past it, a place of each buffer
and the ends of IDX's capacity. -/
theorem witness_AccessesThatHaveAStep :
    defaultConfig.sizesOk = true ∧ target defaultConfig 0x0 4 = .ok (.reg .cmd) ∧
    target defaultConfig 0x18 4 = .ok (.reg .luma) ∧ target defaultConfig 0x1C 4 = .ok (.reg .reserved) ∧
    target defaultConfig 0x3C 4 = .ok (.reg .reserved) ∧ target defaultConfig 0x00100004 4 = .ok (.buf .src 4) ∧
    target defaultConfig 0x00300001 1 = .ok (.buf .comp 1) ∧ target defaultConfig 0x00400000 4 = .ok (.buf .out 0) ∧
    target defaultConfig 0x40 4 = .error (.hostUnmapped 0x40) ∧
    target defaultConfig 0x00200000 1 = .ok (.buf .idx 0) ∧
    target defaultConfig 0x0023E7FF 1 = .ok (.buf .idx 0x3E7FF) ∧
    target defaultConfig 0x0023E800 1 = .error (.hostUnmapped 0x0023E800) := by decide +kernel

/-- A two-byte access, with the engine idle and in the busy window. -/
theorem witness_RefusedAccessHasNoStep :
    (idleWith [.read 0x00100000 2]).nextAgent = .host ∧ (latched 0x2 [.host] [.read 0x00100000 2]).nextAgent = .host ∧
    ¬ opHasStep cfg4 (.read 0x00100000 2) := by
  refine ⟨by decide, by decide, ?_⟩
  rintro ⟨t, h⟩
  have e : target cfg4 0x00100000 2 = .error (.hostWidth 2) := by decide
  rw [e] at h
  cases h

theorem witness_BusyWriteIsDiscarded :
    let s := latched 0x2 [.host] [.write 0x0 4 0xFFFFFFFF]
    s.busy = true ∧ s.nextAgent = .host ∧ s.pending = .write 0x0 4 0xFFFFFFFF :: [] ∧
    target s.cfg 0x0 4 = .ok (.reg .cmd) ∧ target s.cfg 0x00400000 1 = .ok (.buf .out 0) := by decide +kernel

/-- One clause each: STATUS, and another register and a buffer byte. -/
theorem witness_BusyReads :
    let s := latched 0x2 [.host] [.read 0x4 4]
    s.busy = true ∧ s.nextAgent = .host ∧ s.pending = .read 0x4 4 :: [] ∧ target s.cfg 0x4 4 = .ok (.reg .status) ∧
    target s.cfg 0x8 4 = .ok (.reg .width) ∧ target s.cfg 0x00300000 1 = .ok (.buf .comp 0) ∧
    (Target.reg .width ≠ .reg .status) ∧ (Target.buf .comp 0 ≠ .reg .status) := by decide +kernel

/-- One clause each, the destination holding other contents in the second run. -/
theorem witness_CommandsDoNotReadDestination :
    onSrc.DimsLegal ∧ ran (exec .quant onSrc) = true ∧
    ran (exec .quant (onSrc.setBuf .idx (cellsFrom 0 [9, 9]))) = true ∧
    ran (exec .encI (onIdx [1, 2, 3, 4])) = true ∧
    ran (exec .encI ((onIdx [1, 2, 3, 4]).setBuf .comp (cellsFrom 0 [9]))) = true ∧
    ran (exec (decOf .fast .luma) (onComp 7)) = true ∧
    ran (exec (decOf .fast .luma) ((onComp 7).setBuf .out (cellsFrom 0 [9]))) = true := by decide +kernel

end Sys2Proof.Machine.Tests
end

/-! SUPPORT. What a command leaves, and what one step can do to a buffer, to STATUS and to the engine; the
invariant and the statements of 10_state.md that follow from it. -/

namespace Sys2Proof.Machine

/-! ### How a command ends -/

/-- The bytes a buffer holds for one pixel (10_state.md R40). -/
def bytesPerPixel : BufId → Nat
  | .src => 4
  | .idx => 1
  | .comp => 2
  | .out => 4

theorem capacity_eq_bytesPerPixel_mul (c : Config) (b : BufId) :
    capacity c b = bytesPerPixel b * (c.rowPixels * c.maxH) := by
  cases b <;> simp [capacity, bytesPerPixel, Nat.mul_assoc]

/-- The two ways a raster command that has a next state ends: with an error, or with its whole destination region
written (60_exceptions.md R231, 20_memory.md R68). -/
def RasterEnd (s t : State) : Prop :=
  (∃ e, t = s.raiseErr e) ∨
  ∃ d bytes u, s.DimsLegal ∧ bytes.length = bytesPerPixel d * (s.latchedW * s.latchedH) ∧ t = s.finish d bytes u

theorem RasterEnd.error (s : State) (e : ErrCode) : RasterEnd s (s.raiseErr e) := .inl ⟨e, rfl⟩

theorem RasterEnd.written {s : State} (d : BufId) {bytes : List Byte} (u : Bool)
    (hdims : dimsOk s.cfg s.latchedW s.latchedH = true)
    (hlen : bytes.length = bytesPerPixel d * (s.latchedW * s.latchedH)) : RasterEnd s (s.finish d bytes u) :=
  .inr ⟨d, bytes, u, (dimsOk_iff _ _ _).1 hdims, hlen, rfl⟩

theorem execQuant_rasterEnd {s t : State} (h : execQuant s = .next t) : RasterEnd s t := by
  rcases execQuant_cases s with ⟨-, he⟩ | ⟨hd, he⟩ <;> rw [he] at h <;> cases h
  · exact .error _ _
  · exact .written _ _ hd (by simp [bytesPerPixel])

theorem runEnc_rasterEnd {s t : State} {at_ : Nat → Nat → Nat → Nat → Option Byte}
    (h : runEnc s at_ = .next t) : RasterEnd s t := by
  rcases runEnc_cases s at_ with ⟨-, he⟩ | ⟨-, -, he⟩ | ⟨hd, -, he⟩ <;> rw [he] at h <;> cases h
  · exact .error _ _
  · exact .error _ _
  · exact .written _ _ hd (by simp [bytesPerPixel, Nat.mul_assoc])

theorem runDec_rasterEnd {s t : State} {me : Method} {mo : Mode} (h : runDec s me mo = .next t) :
    RasterEnd s t := by
  rcases runDec_cases s me mo with ⟨-, he⟩ | ⟨hd, he⟩ <;> rw [he] at h <;> cases h
  · exact .error _ _
  · exact .written _ _ hd (by simp [bytesPerPixel])

theorem runAcc_rasterEnd {s t : State} {mo : Mode} (h : runAcc s mo = .next t) : RasterEnd s t := by
  by_cases hz : s.cfg.accSubpixel = 0
  · rw [runAcc_of_zero hz] at h; exact runDec_rasterEnd h
  · rw [runAcc_of_nonzero hz] at h; cases h

/-- Everything a command that has a next state leaves, by command. -/
theorem exec_next {i : Instr} {s t : State} (h : exec i s = .next t) :
    (i = .nop ∧ t = s.complete) ∨ (i = .srst ∧ t = s.toIdle.resetRegisters) ∨
    (i ≠ .nop ∧ i ≠ .srst ∧ RasterEnd s t) := by
  cases i with
  | nop => cases h; exact .inl ⟨rfl, rfl⟩
  | srst => cases h; exact .inr (.inl ⟨rfl, rfl⟩)
  | quant => exact .inr (.inr ⟨by decide, by decide, execQuant_rasterEnd h⟩)
  | encI | encF => exact .inr (.inr ⟨by decide, by decide, runEnc_rasterEnd h⟩)
  | decFastRgb | decFastLuma | decFastChroma => exact .inr (.inr ⟨by decide, by decide, runDec_rasterEnd h⟩)
  | decAccRgb | decAccLuma | decAccChroma => exact .inr (.inr ⟨by decide, by decide, runAcc_rasterEnd h⟩)

/-! ### What a step does to the buffers and the configuration -/

/-- What one step can do to a buffer of configuration `c`: leave it, take a host write inside its capacity, or take a
whole region of a raster the configuration accepts. -/
def BufMove (c : Config) (b : BufId) (m m' : Memory) : Prop :=
  m' = m ∨
  (∃ off n v, off + n ≤ capacity c b ∧ m' = writeBytes m off n v) ∨
  ∃ bytes w h, w ∈ c.widthSet ∧ h ≤ c.maxH ∧ bytes.length = bytesPerPixel b * (w * h) ∧ m' = m.overwrite bytes

/-- A legal raster fits its buffer, as the configuration's checks promise (20_memory.md R61). -/
theorem region_le_capacity {c : Config} (hc : c.sizesOk = true) {w h : Nat} (hw : w ∈ c.widthSet) (hh : h ≤ c.maxH)
    (b : BufId) : bytesPerPixel b * (w * h) ≤ capacity c b := by
  have hrow : w ≤ c.rowPixels := by
    simp only [Config.sizesOk, Bool.and_eq_true, List.all_eq_true, decide_eq_true_eq] at hc
    obtain ⟨-, hwidths⟩ := hc
    exact (hwidths w hw).2
  rw [capacity_eq_bytesPerPixel_mul]
  exact Nat.mul_le_mul_left _ (Nat.mul_le_mul hrow hh)

theorem BufMove.wf {c : Config} {b : BufId} {m m' : Memory} (h : BufMove c b m m') (hm : m.wf) : m'.wf := by
  rcases h with rfl | ⟨off, n, v, -, rfl⟩ | ⟨bytes, _, _, -, -, -, rfl⟩
  · exact hm
  · exact wf_writeBytes hm off n v
  · exact Memory.wf_overwrite hm bytes

/-- A byte at or past the capacity is not touched. -/
theorem BufMove.read_past {c : Config} {b : BufId} {m m' : Memory} (h : BufMove c b m m') (hc : c.sizesOk = true)
    {off : Nat} (hoff : capacity c b ≤ off) : m'.read off = m.read off := by
  rcases h with rfl | ⟨o, n, v, hfit, rfl⟩ | ⟨bytes, w, h, hw, hh, hlen, rfl⟩
  · rfl
  · rw [read_writeBytes, if_neg (by omega)]
  · have := region_le_capacity hc hw hh b
    rw [Memory.read_overwrite, if_neg (by omega)]

/-- A written byte stays written (10_state.md R41). -/
theorem BufMove.isSome {c : Config} {b : BufId} {m m' : Memory} (h : BufMove c b m m') {off : Nat}
    (hoff : (m.read off).isSome = true) : (m'.read off).isSome = true := by
  rcases h with rfl | ⟨o, n, v, -, rfl⟩ | ⟨bytes, _, _, -, -, -, rfl⟩
  · exact hoff
  · rw [read_writeBytes]; split <;> simp [hoff]
  · rw [Memory.read_overwrite]
    split
    · rename_i hlt; rw [List.getElem?_eq_getElem hlt]; rfl
    · exact hoff

theorem RasterEnd.bufMove {s t : State} (h : RasterEnd s t) (b : BufId) : BufMove s.cfg b (s.buf b) (t.buf b) := by
  rcases h with ⟨e, rfl⟩ | ⟨d, bytes, u, ⟨hw, -, hh⟩, hlen, rfl⟩
  · exact .inl (by simp)
  · rw [State.finish_buf]
    split
    · subst b; exact .inr (.inr ⟨bytes, _, _, hw, hh, hlen, rfl⟩)
    · exact .inl rfl

theorem exec_bufMove {i : Instr} {s t : State} (h : exec i s = .next t) (b : BufId) :
    BufMove s.cfg b (s.buf b) (t.buf b) := by
  rcases exec_next h with ⟨-, rfl⟩ | ⟨-, rfl⟩ | ⟨-, -, hr⟩
  · exact .inl (by simp)
  · exact .inl (by simp)
  · exact hr.bufMove b

theorem engineStep_bufMove {s t : State} (h : engineStep s = .next t) (b : BufId) :
    BufMove s.cfg b (s.buf b) (t.buf b) := by
  rcases engineStep_next h with ⟨-, rfl⟩ | ⟨_, _, -, -, rfl⟩ | ⟨_, i, -, -, hx⟩
  · exact .inl rfl
  · exact .inl (by simp)
  · exact exec_bufMove hx b

theorem hostStep_bufMove {s t : State} (h : hostStep s = .next t) (b : BufId) :
    BufMove s.cfg b (s.buf b) (t.buf b) := by
  rcases hostStep_next h with ⟨-, rfl⟩ | ⟨_, _, _, _, -, -, rfl⟩ | ⟨addr, n, v, _, tg, -, ht, rfl⟩ | ⟨_, -, rfl⟩
  · exact .inl rfl
  · exact .inl (by simp [hostRead_buf])
  · rcases hostWrite_buf s.popPending n v tg b with he | ⟨-, off, rfl, he⟩
    · exact .inl (by simp [he])
    · rw [he, State.popPending_buf]
      exact .inr (.inl ⟨off, n, v, (target_buf ht).1, rfl⟩)
  · exact .inl (by simp [pollStep_buf])

/-- Everything a step can do to a buffer. -/
theorem step_bufMove {s t : State} (h : step s = .next t) (b : BufId) : BufMove s.cfg b (s.buf b) (t.buf b) := by
  rcases step_cases h with ⟨-, hm⟩ | ⟨-, hm⟩
  · simpa using hostStep_bufMove hm b
  · simpa using engineStep_bufMove hm b

theorem hostRead_cfg (s : State) (addr : Word) (n : Nat) (tg : Target) : (hostRead s addr n tg).cfg = s.cfg := by
  unfold hostRead readBusy readIdle
  split <;> split <;> simp

theorem hostWrite_cfg (s : State) (n : Nat) (v : Word) (tg : Target) : (hostWrite s n v tg).cfg = s.cfg := by
  unfold hostWrite writeIdle
  split
  · simp
  · split <;> simp

theorem pollStep_cfg (s : State) : (pollStep s).cfg = s.cfg := by unfold pollStep; split <;> simp

theorem exec_cfg {i : Instr} {s t : State} (h : exec i s = .next t) : t.cfg = s.cfg := by
  rcases exec_next h with ⟨-, rfl⟩ | ⟨-, rfl⟩ | ⟨-, -, hr⟩
  · simp
  · simp
  · rcases hr with ⟨e, rfl⟩ | ⟨d, bytes, u, -, -, rfl⟩
    · simp
    · simp

/-- No step changes the configuration (10_state.md R37). -/
theorem step_cfg {s t : State} (h : step s = .next t) : t.cfg = s.cfg := by
  rcases step_cases h with ⟨-, hm⟩ | ⟨-, hm⟩
  · rcases hostStep_next hm with ⟨-, rfl⟩ | ⟨_, _, _, _, -, -, rfl⟩ | ⟨_, _, _, _, _, -, -, rfl⟩ | ⟨_, -, rfl⟩
    · rfl
    · simp [hostRead_cfg]
    · simp [hostWrite_cfg]
    · simp [pollStep_cfg]
  · rcases engineStep_next hm with ⟨-, rfl⟩ | ⟨_, _, -, -, rfl⟩ | ⟨_, _, -, -, hx⟩
    · rfl
    · simp
    · simp [exec_cfg hx]

/-! ### What a step does to STATUS and the engine -/

/-- The engine stays, and STATUS but for HAZ, which a busy engine's host can set (60_exceptions.md R238). -/
def EngineStays (s t : State) : Prop :=
  t.engine = s.engine ∧ (t.status = s.status ∨ s.busy = true ∧ t.status = s.status.hazarded)

/-- An idle engine is issued the word of a host write to CMD (10_state.md R23). -/
def EngineIssued (s t : State) : Prop :=
  s.busy = false ∧ t.status = s.status.cleared ∧
  ∃ v rest, s.pending = .write 0x00000000 4 v :: rest ∧ t.engine = .busy (s.latchNow v)

/-- A busy engine ends its command: normally, by SRST, or with an error (10_state.md R24, 60_exceptions.md R231). -/
def EngineEnds (s t : State) : Prop :=
  s.busy = true ∧ t.engine = .idle ∧
  (t.status = s.status.completed ∨ t.status = s.status.cleared ∨ ∃ e, t.status = s.status.errored e)

/-- Everything one step can do to STATUS and the engine. -/
def ControlMove (s t : State) : Prop := EngineStays s t ∨ EngineIssued s t ∨ EngineEnds s t

theorem ControlMove.kept {s t : State} (hst : t.status = s.status) (hen : t.engine = s.engine) : ControlMove s t :=
  .inl ⟨hen, .inl hst⟩

theorem ControlMove.hazard {s t : State} (hb : s.busy = true) (hst : t.status = s.status.hazarded)
    (hen : t.engine = s.engine) : ControlMove s t :=
  .inl ⟨hen, .inr ⟨hb, hst⟩⟩

theorem exec_engineEnds {i : Instr} {s t : State} (hb : s.busy = true) (h : exec i s = .next t) :
    EngineEnds s t := by
  rcases exec_next h with ⟨-, rfl⟩ | ⟨-, rfl⟩ | ⟨-, -, ⟨e, rfl⟩ | ⟨d, bytes, u, -, -, rfl⟩⟩
  · exact ⟨hb, by simp, .inl (by simp)⟩
  · exact ⟨hb, by simp, .inr (.inl (by simp))⟩
  · exact ⟨hb, by simp, .inr (.inr ⟨e, by simp⟩)⟩
  · exact ⟨hb, by simp, .inl (by simp)⟩

theorem engineStep_controlMove {s t : State} (h : engineStep s = .next t) : ControlMove s t := by
  rcases engineStep_next h with ⟨-, rfl⟩ | ⟨l, _, he, -, rfl⟩ | ⟨l, i, he, -, hx⟩
  · exact .kept rfl rfl
  · exact .inr (.inr ⟨State.busy_eq_true.2 ⟨l, he⟩, by simp, .inr (.inr ⟨.illegal, by simp⟩)⟩)
  · exact .inr (.inr (exec_engineEnds (State.busy_eq_true.2 ⟨l, he⟩) hx))

/-- CMD alone lies at offset 0 of the register file (10_state.md R22). -/
theorem regAt_eq_cmd {off : Nat} (h : regAt off = .cmd) : off = 0 := by
  unfold regAt at h
  split at h
  · assumption
  · repeat' (split at h; · cases h)
    cases h

theorem hostRead_controlMove (s : State) (addr : Word) (n : Nat) (tg : Target) :
    ControlMove s (hostRead s.popPending addr n tg) := by
  cases hb : s.busy
  · cases tg <;> exact .kept (by simp [hostRead, hb, readIdle]) (by simp [hostRead, hb, readIdle])
  · by_cases ht : tg = .reg .status
    · exact .kept (by simp [hostRead, hb, readBusy, ht]) (by simp [hostRead, hb, readBusy, ht])
    · exact .hazard hb (by simp [hostRead, hb, readBusy, ht]) (by simp [hostRead, hb, readBusy, ht])

/-- A register write with the engine idle moves STATUS and the engine only where the register is CMD. -/
theorem writeReg_status_engine_of_ne_cmd (s : State) {r : RegId} (v : Word) (hr : r ≠ .cmd) :
    (s.writeReg r v).status = s.status ∧ (s.writeReg r v).engine = s.engine := by
  cases r with
  | cmd => exact absurd rfl hr
  | _ => exact ⟨rfl, rfl⟩

theorem pollStep_controlMove (s : State) : ControlMove s (pollStep s) := by
  unfold pollStep
  split <;> exact .kept (by simp) (by simp)

theorem hostWrite_controlMove {s : State} {addr v : Word} {n : Nat} {rest : List HostOp} {tg : Target}
    (hp : s.pending = .write addr n v :: rest) (ht : target s.cfg addr n = .ok tg) :
    ControlMove s (hostWrite s.popPending n v tg) := by
  cases hb : s.busy
  · cases tg with
    | buf b off => exact .kept (by simp [hostWrite, hb, writeIdle]) (by simp [hostWrite, hb, writeIdle])
    | reg r =>
      have hw : hostWrite s.popPending n v (.reg r) = s.popPending.writeReg r v := by
        simp [hostWrite, hb, writeIdle]
      rw [hw]
      by_cases hr : r = .cmd
      · subst hr
        obtain ⟨rfl, -, -, hreg⟩ := target_reg ht
        have haddr : addr = 0x00000000 := BitVec.eq_of_toNat_eq (regAt_eq_cmd hreg.symm)
        exact .inr (.inl ⟨hb, rfl, v, rest, haddr ▸ hp, rfl⟩)
      · obtain ⟨hst, hen⟩ := writeReg_status_engine_of_ne_cmd s.popPending v hr
        exact .kept hst hen
  · exact .hazard hb (by simp [hostWrite, hb]) (by simp [hostWrite, hb])

theorem hostStep_controlMove {s t : State} (h : hostStep s = .next t) : ControlMove s t := by
  rcases hostStep_next h with ⟨-, rfl⟩ | ⟨addr, n, _, tg, -, -, rfl⟩ | ⟨_, _, _, _, _, hp, ht, rfl⟩ | ⟨_, -, rfl⟩
  · exact .kept rfl rfl
  · exact hostRead_controlMove s addr n tg
  · exact hostWrite_controlMove hp ht
  · exact pollStep_controlMove s

/-- Taking a turn moves neither STATUS nor the engine, nor what an issue latches. -/
theorem controlMove_of_popTurn {s t : State} (h : ControlMove s.popTurn t) : ControlMove s t := h

/-- Everything a step can do to STATUS and the engine. -/
theorem step_controlMove {s t : State} (h : step s = .next t) : ControlMove s t := by
  rcases step_cases h with ⟨-, hm⟩ | ⟨-, hm⟩
  · exact controlMove_of_popTurn (hostStep_controlMove hm)
  · exact controlMove_of_popTurn (engineStep_controlMove hm)

theorem State.busy_eq_of_engine_eq {s t : State} (h : t.engine = s.engine) : t.busy = s.busy := by
  simp only [State.busy, h]

/-! ### The invariant -/

/-- After power-on every buffer byte is unwritten (10_state.md R44). -/
theorem reset_buf_read (b : BufId) (off : Nat) : (State.reset.buf b).read off = none := by cases b <;> rfl

/-- A run of `n + 1` steps is one step and a run of `n`. -/
theorem run_succ_next {M : Host.Core} {n : Nat} {s t : M.State} (h : M.run (n + 1) s = .next t) :
    ∃ u, M.step s = .next u ∧ M.run n u = .next t := by
  unfold Host.Core.run at h
  split at h
  · rename_i u hu; exact ⟨u, hu, h⟩
  · cases h
  · cases h

/-- A STATUS with BUSY, DONE and ERR 0 and no code, and HAZ of any value, is legal whatever the engine does. -/
theorem statusInv_of_cleared {s t : State} (hst : t.status = s.status.cleared) : t.StatusInv := by
  constructor <;> simp [hst]

/-- With the engine idle and DONE set, STATUS is legal where ERR and ERRCODE are 0. -/
theorem statusInv_of_completed {s t : State} (hs : s.StatusInv) (hb : s.busy = true)
    (hst : t.status = s.status.completed) (hen : t.engine = .idle) : t.StatusInv := by
  have hidle : t.busy = false := State.busy_eq_false.2 hen
  have herr := hs.busy_err hb
  have hcode := hs.code_iff.2 herr
  constructor <;> simp [hst, hidle, herr, hcode]

/-- Every error's code is one of 60_exceptions.md R232, so an error leaves a legal STATUS. -/
theorem statusInv_of_errored {s t : State} {e : ErrCode} (hst : t.status = s.status.errored e)
    (hen : t.engine = .idle) : t.StatusInv := by
  have hidle : t.busy = false := State.busy_eq_false.2 hen
  constructor <;> cases e <;> simp [hst, hidle, errCodeBits]

/-- STATUS's legality reads neither HAZ nor the latches. -/
theorem statusInv_of_same_fields {s t : State} (hs : s.StatusInv) (hen : t.engine = s.engine)
    (hdone : t.status.done = s.status.done) (herr : t.status.err = s.status.err)
    (hcode : t.status.errCode = s.status.errCode) : t.StatusInv := by
  have hbusy := State.busy_eq_of_engine_eq hen
  constructor
  · rw [hbusy, hdone]; exact hs.busy_done
  · rw [hbusy, herr]; exact hs.busy_err
  · rw [hdone, herr]; exact hs.done_err
  · rw [hcode, herr]; exact hs.code_iff
  · rw [hcode]; exact hs.code_le

theorem ControlMove.statusInv {s t : State} (h : ControlMove s t) (hs : s.StatusInv) : t.StatusInv := by
  rcases h with ⟨hen, hst | ⟨-, hst⟩⟩ | ⟨-, hst, -⟩ | ⟨hb, hen, hst | hst | ⟨e, hst⟩⟩
  · exact statusInv_of_same_fields hs hen (by rw [hst]) (by rw [hst]) (by rw [hst])
  · exact statusInv_of_same_fields hs hen (by simp [hst]) (by simp [hst]) (by simp [hst])
  · exact statusInv_of_cleared hst
  · exact statusInv_of_completed hs hb hst hen
  · exact statusInv_of_cleared hst
  · exact statusInv_of_errored hst hen

theorem memInv_iff {s : State} : s.MemInv ↔ ∀ b, (s.buf b).wf :=
  ⟨fun h b => by cases b; exacts [h.src, h.idx, h.comp, h.out], fun h => ⟨h .src, h .idx, h .comp, h .out⟩⟩

theorem sizesOk_of_wellFormed {c : Config} (h : c.wellFormed = true) : c.sizesOk = true := by
  simp only [Config.wellFormed, Bool.and_eq_true] at h
  obtain ⟨⟨-, hsizes⟩, -⟩ := h
  exact hsizes

/-- Settles O10: the three layers of the invariant follow from what a step can do to the configuration, to a buffer, and
to STATUS and the engine. -/
theorem stepKeepsInv : Obligations.StepKeepsInv := by
  unfold Obligations.StepKeepsInv
  intro s t hs h
  have hcfg := step_cfg h
  refine ⟨by rw [hcfg]; exact hs.cfg, memInv_iff.2 fun b => ?_, fun b off hoff => ?_, ?_⟩
  · exact (step_bufMove h b).wf (memInv_iff.1 hs.mem b)
  · rw [hcfg] at hoff
    rw [(step_bufMove h b).read_past (sizesOk_of_wellFormed hs.cfg) hoff]
    exact hs.cap b off hoff
  · exact (step_controlMove h).statusInv hs.status

/-- Settles O9. -/
theorem resetHasInv : Obligations.ResetHasInv := by
  unfold Obligations.ResetHasInv
  have hcfg : State.reset.cfg.wellFormed = true := by decide
  have hstatus : State.reset.StatusInv := by constructor <;> simp [State.reset]
  exact ⟨hcfg, memInv_iff.2 wf_reset, fun b off _ => reset_buf_read b off, hstatus⟩

/-- Settles O11. -/
theorem writtenBytesStayWritten : Obligations.WrittenBytesStayWritten := by
  unfold Obligations.WrittenBytesStayWritten
  intro s t b off h hoff
  exact (step_bufMove h b).isSome hoff

/-- Settles O12, by induction on the number of steps. -/
theorem constantTablesNeverChange : Obligations.ConstantTablesNeverChange := by
  unfold Obligations.ConstantTablesNeverChange
  intro n
  induction n with
  | zero => intro s t h; cases h; rfl
  | succ n ih =>
    intro s t h
    obtain ⟨u, hu, ht⟩ := run_succ_next h
    rw [ih u t ht, step_cfg hu]

/-! ### One host write, one engine move, one command placed after reset -/

/-- A host write that has a step, as the next operation of the program. -/
theorem hostStep_write {s : State} {addr v : Word} {n : Nat} {rest : List HostOp} {tg : Target}
    (hp : s.pending = .write addr n v :: rest) (ht : target s.cfg addr n = .ok tg) :
    hostStep s = .next (hostWrite s.popPending n v tg) := by
  simp [hostStep, hp, access, ht]

/-- The engine's move where the latched word is a command (10_state.md R42, 20_memory.md R69). -/
theorem step_of_decode {s : State} {l : Latch} {i : Instr} (he : s.engine = .busy l) (hd : decode l.word = .ok i)
    (hn : s.nextAgent = .engine) : step s = exec i s.popTurn := by
  have hf : s.popTurn.fetched = .command i := by
    rw [State.fetched_of_busy (s := s.popTurn) he, hd]
  rw [step_engine hn, engineStep, hf]

/-- Settles O5. -/
theorem stepRunsDecodedCommand : Obligations.StepRunsDecodedCommand := by
  unfold Obligations.StepRunsDecodedCommand
  intro s l i he hd hn
  exact step_of_decode he hd hn

/-- Settles O6. -/
theorem cmdWriteIssuesCommand : Obligations.CmdWriteIssuesCommand := by
  unfold Obligations.CmdWriteIssuesCommand
  intro s v rest he hn hp
  have htarget : target s.cfg 0x00000000 4 = .ok (.reg .cmd) := target_regAt _ (by decide) (by decide)
  have hidle : s.busy = false := State.busy_eq_false.2 he
  have hwrite : hostWrite s.popTurn.popPending 4 v (.reg .cmd) = s.popTurn.popPending.issue v := by
    simp [hostWrite, hidle, writeIdle, State.writeReg]
  have hrest : s.popTurn.popPending = { s with turns := s.turns.tail, pending := rest } := by
    simp [State.popPending, State.popTurn, hp]
  rw [step_host hn, hostStep_write (s := s.popTurn) hp htarget, hwrite, hrest]
  rfl

/-- Settles O8. -/
theorem commandEndsDoneOrErr : Obligations.CommandEndsDoneOrErr := by
  unfold Obligations.CommandEndsDoneOrErr
  intro s t i hs hb h
  have herr : s.status.err = false := hs.busy_err hb
  refine ⟨State.busy_eq_false.2 (exec_idle h), fun hi => ?_, fun hi => ?_⟩
  · rcases exec_next h with ⟨-, rfl⟩ | ⟨hsrst, -⟩ | ⟨-, -, ⟨e, rfl⟩ | ⟨d, bytes, u, -, -, rfl⟩⟩
    · simp [herr]
    · exact absurd hsrst hi
    · simp
    · simp [herr]
  · subst hi; cases h; simp

/-- A busy engine keeps its latches or ends its command. -/
theorem ControlMove.engine_of_busy {s t : State} (h : ControlMove s t) (hb : s.busy = true) :
    t.engine = s.engine ∨ t.engine = .idle := by
  rcases h with ⟨hen, -⟩ | ⟨hidle, -⟩ | ⟨-, hen, -⟩
  · exact .inl hen
  · simp [hb] at hidle
  · exact .inr hen

/-- An idle engine becomes busy only by a host word write to CMD. -/
theorem ControlMove.pending_of_issue {s t : State} (h : ControlMove s t) (hs : s.busy = false) (ht : t.busy = true) :
    ∃ v rest, s.pending = .write 0x00000000 4 v :: rest := by
  rcases h with ⟨hen, -⟩ | ⟨-, -, v, rest, hop, -⟩ | ⟨hb, -⟩
  · simp [State.busy_eq_of_engine_eq hen, hs] at ht
  · exact ⟨v, rest, hop⟩
  · simp [hb] at hs

theorem engineStep_of_idle {s : State} (h : s.engine = .idle) : engineStep s = .next s := by
  have hf : s.fetched = .nothing := by simp [State.fetched, h]
  rw [engineStep, hf]

/-- Settles O15. -/
theorem engineChangesOnlyByIssueOrCompletion : Obligations.EngineChangesOnlyByIssueOrCompletion := by
  unfold Obligations.EngineChangesOnlyByIssueOrCompletion
  intro s t h
  refine ⟨(step_controlMove h).engine_of_busy, fun hs ht => ⟨?_, (step_controlMove h).pending_of_issue hs ht⟩⟩
  rcases step_cases h with ⟨hn, -⟩ | ⟨-, hm⟩
  · exact hn
  · have hidle : s.popTurn.engine = .idle := State.busy_eq_false.1 hs
    rw [engineStep_of_idle hidle] at hm
    cases hm
    simp [hs] at ht

/-! ### The reset state and STATUS's word -/

/-- The decoder reads each command's word as that command, by the lemma of that command. -/
theorem decode_encode (i : Instr) : decode (encode i) = .ok i := by
  cases i with
  | nop => exact Laws.RoundTrip.nop
  | quant => exact Laws.RoundTrip.quant
  | encI => exact Laws.RoundTrip.encI
  | encF => exact Laws.RoundTrip.encF
  | decFastRgb => exact Laws.RoundTrip.decFastRgb
  | decFastLuma => exact Laws.RoundTrip.decFastLuma
  | decFastChroma => exact Laws.RoundTrip.decFastChroma
  | decAccRgb => exact Laws.RoundTrip.decAccRgb
  | decAccLuma => exact Laws.RoundTrip.decAccLuma
  | decAccChroma => exact Laws.RoundTrip.decAccChroma
  | srst => exact Laws.RoundTrip.srst

theorem withFetchWord_toNat (s : State) (w : Word) : s.withFetchWord 32 w.toNat = s.withCommand w := by
  simp [State.withFetchWord, Nat.mod_eq_of_lt w.isLt]

/-- A command placed to run at once is what the next step performs. -/
theorem step_withCommand_encode (s : State) (i : Instr) :
    step (s.withCommand (encode i)) = exec i (s.withCommand (encode i)) :=
  step_of_decode (l := s.latchNow (encode i)) rfl (decode_encode i) rfl

/-- With illegal latched dimensions a raster command that is not refused ends with ERR_DIM (60_exceptions.md R234). -/
theorem exec_of_not_dimsLegal {s : State} {i : Instr} (hnop : i ≠ .nop) (hsrst : i ≠ .srst)
    (hacc : s.cfg.accSubpixel = 0) (hd : ¬ s.DimsLegal) : exec i s = .next (s.raiseErr .dim) := by
  have hdims := dims_false hd
  cases i with
  | nop => exact absurd rfl hnop
  | srst => exact absurd rfl hsrst
  | quant => change execQuant s = _; rw [execQuant, withDims_bad hdims]
  | encI | encF => change runEnc s _ = _; rw [runEnc, withDims_bad hdims]
  | decFastRgb | decFastLuma | decFastChroma => change runDec s _ _ = _; rw [runDec, withDims_bad hdims]
  | decAccRgb | decAccLuma | decAccChroma =>
    change runAcc s _ = _; rw [runAcc_of_zero hacc, runDec, withDims_bad hdims]

/-- Settles O16. -/
theorem resetValues : Obligations.ResetValues := by
  unfold Obligations.ResetValues
  exact ⟨by decide, reset_buf_read, rfl, rfl⟩

/-- Settles O17: HEIGHT is latched as 0, so only NOP and SRST do not end with ERR_DIM. -/
theorem firstCommandAfterReset : Obligations.FirstCommandAfterReset := by
  unfold Obligations.FirstCommandAfterReset
  intro i
  rw [withFetchWord_toNat, step_withCommand_encode]
  by_cases hnop : i = .nop
  · subst hnop; exact ⟨_, rfl, by decide⟩
  by_cases hsrst : i = .srst
  · subst hsrst; exact ⟨_, rfl, by decide⟩
  have hheight : (State.reset.withCommand (encode i)).latchedH = 0 := rfl
  have hdims : ¬ (State.reset.withCommand (encode i)).DimsLegal := by
    rintro ⟨-, hpos, -⟩
    omega
  have hst : ((State.reset.withCommand (encode i)).raiseErr .dim).status = ⟨false, true, false, 2⟩ := rfl
  refine ⟨_, exec_of_not_dimsLegal hnop hsrst rfl hdims, ?_⟩
  rw [if_neg hnop, if_neg hsrst, State.statusWord, hst, State.raiseErr_busy]
  decide

/-- Settles O18: bit by bit, through the joins that make the word. -/
theorem statusWordLayout : Obligations.StatusWordLayout := by
  unfold Obligations.StatusWordLayout
  intro s
  simp only [State.statusWord, BitVec.getLsbD_append]
  refine ⟨by simp, by simp, by simp, by simp, ?_, ?_⟩
  · ext k hk
    simp only [BitVec.getElem_extractLsb', BitVec.getLsbD_append]
    simp [hk, BitVec.getLsbD_eq_getElem]
  · ext k hk
    simp only [BitVec.getElem_extractLsb', BitVec.getLsbD_append]
    simp

/-! ### The waveform tables -/

/-- The pattern of 1.0 fits a register: it lies below the exponent's top bit (10_state.md R27). -/
theorem onePattern_lt {f : FloatFmt} (h : f.wellFormed = true) : f.onePattern < 2 ^ 32 := by
  simp only [FloatFmt.wellFormed, Bool.and_eq_true, decide_eq_true_eq] at h
  obtain ⟨⟨-, -⟩, hbits⟩ := h
  calc f.onePattern ≤ 2 ^ (f.expBits - 1) * 2 ^ f.fracBits := Nat.mul_le_mul_right _ (Nat.sub_le _ 1)
    _ = 2 ^ (f.expBits - 1 + f.fracBits) := (pow_add 2 _ _).symm
    _ < 2 ^ 32 := Nat.pow_lt_pow_right (by norm_num) (by omega)

theorem toNat_onePattern {f : FloatFmt} (h : f.wellFormed = true) :
    (BitVec.ofNat 32 f.onePattern).toNat = f.onePattern := by
  rw [BitVec.toNat_ofNat, Nat.mod_eq_of_lt (onePattern_lt h)]

theorem unitPattern_le (one w : Word) : (unitPattern one w).toNat ≤ one.toNat := by
  unfold unitPattern
  split
  · assumption
  · exact le_refl _

theorem waveFOk_le {one : Nat} {waveF : Table8 Word} (h : waveFOk one waveF = true) (hue p : Fin 8) :
    (waveF[hue][p]).toNat ≤ one := by
  simp only [waveFOk, List.all_eq_true, decide_eq_true_eq] at h
  exact h hue (List.mem_finRange hue) p (List.mem_finRange p)

theorem waveRowsOk_at {one : Nat} {waveF : Table8 Word} {waveB : Table8 Byte} (h : waveRowsOk one waveF waveB = true)
    (p : Fin 8) :
    waveB[(0 : Fin 8)][p] = 0 ∧ waveB[(7 : Fin 8)][p] = 255 ∧ waveF[(0 : Fin 8)][p] = 0 ∧
      waveF[(7 : Fin 8)][p] = BitVec.ofNat 32 one := by
  simp only [waveRowsOk, List.all_eq_true, Bool.and_eq_true, beq_iff_eq] at h
  obtain ⟨⟨⟨hb0, hb7⟩, hf0⟩, hf7⟩ := h p (List.mem_finRange p)
  exact ⟨hb0, hb7, hf0, hf7⟩

/-- Settles O35. -/
theorem waveformRowsAsStated : Obligations.WaveformRowsAsStated := by
  unfold Obligations.WaveformRowsAsStated
  intro c p hc
  simp only [Config.wellFormed, Bool.and_eq_true] at hc
  obtain ⟨⟨hfmt, -⟩, hwaves⟩ := hc
  have hone := toNat_onePattern hfmt
  cases hw : c.waves with
  | hardware =>
    simp only [waveBCell, waveFCell, hw]
    refine ⟨rfl, rfl, rfl, hone, fun hue => ?_⟩
    unfold waveCell
    split
    · simp
    · split
      · exact hone.le
      · exact (unitPattern_le _ _).trans hone.le
  | given f b e =>
    simp only [Config.wavesOk, hw, Bool.and_eq_true] at hwaves
    obtain ⟨hcells, hrows⟩ := hwaves
    obtain ⟨hb0, hb7, hf0, hf7⟩ := waveRowsOk_at hrows p
    simp only [waveBCell, waveFCell, hw]
    exact ⟨hb0, hb7, hf0, by rw [hf7, hone], fun hue => waveFOk_le hcells hue p⟩

/-! ### Uniform rasters -/

/-- A raster whose every sample has one value reads as that value at every byte of its region. -/
theorem read_encBytes_uniform (at_ : Nat → Nat → Nat → Option Byte) (m : Memory) (d : Nat) {w ht o : Nat} {b : Byte}
    (hb : ∀ x < w, ∀ y < ht, ∀ h < 2, at_ x y h = some b) (ho : o < 2 * w * ht) :
    (m.overwrite (encBytes at_ d w (2 * w * ht))).read o = some b := by
  have hcol : o % (2 * w) < 2 * w := Nat.mod_lt _ (Nat.pos_of_lt_mul_right ho)
  have hx : o % (2 * w) / 2 < w := by omega
  have hrow : o / (2 * w) < ht := Nat.div_lt_of_lt_mul ho
  have ho' : o / (2 * w) * (2 * w) + (2 * (o % (2 * w) / 2) + o % (2 * w) % 2) = o := by
    rw [Nat.div_add_mod, Nat.mul_comm, Nat.div_add_mod]
  rw [← ho']
  have hh : o % (2 * w) % 2 < 2 := Nat.mod_lt _ (by decide)
  exact read_encBytes at_ m d hx hrow hh (hb _ hx _ hrow _ hh)

/-- With the source's constants, index 15 samples White's full cell with the intensity bit, 191 + 64, and index 0
Black's empty one without it (41_encoder.md R123). -/
theorem sampleI_extreme {c : Config} (hc : c.wellFormed = true) (hlit : c.lit = sourceLiterals) {i v : Byte}
    (hiv : (i = 15 ∧ v = 255) ∨ (i = 0 ∧ v = 0)) (p : Fin 8) : sampleI c (hueOf i) (brightOf i) p = v := by
  obtain ⟨hblack, hwhite, -⟩ := waveformRowsAsStated c p hc
  rcases hiv with ⟨rfl, rfl⟩ | ⟨rfl, rfl⟩
  · have hhue : hueOf 15 = 7 := rfl
    rw [hhue, sampleI, sampleIRaw, hwhite, hlit]
    rfl
  · have hhue : hueOf 0 = 0 := rfl
    rw [hhue, sampleI, sampleIRaw, hblack, hlit]
    rfl

/-- Settles O36. -/
theorem uniformRastersEncode : Obligations.UniformRastersEncode := by
  unfold Obligations.UniformRastersEncode
  intro s i v hiv hd hc hlit hidx
  have hle : i.toNat ≤ 15 := by rcases hiv with ⟨rfl, -⟩ | ⟨rfl, -⟩ <;> decide
  have hlegal : s.IdxLegal := fun k hk => by simpa [hidx k hk] using hle
  refine ⟨_, runEnc_ok (encIAt s.cfg s.idx) hd (indexBad_of_legal hlegal), fun o ho => ?_⟩
  rw [State.finish_comp]
  refine read_encBytes_uniform _ _ _ (fun x hx y hy h _ => ?_) ho
  rw [encIAt, hidx _ (cellAt_lt hx hy), Option.map_some, sampleI_extreme hc hlit hiv]

end Sys2Proof.Machine


/-! SUPPORT. The host's accesses (20_memory.md): one idle access as one step, the map of addresses, the bytes of a word;
and that a raster command does not read the buffer it writes. -/

namespace Sys2Proof.Machine

/-! ### One access with the engine idle -/

theorem popTurn_popPending {s : State} {op : HostOp} {rest : List HostOp} (hp : s.pending = op :: rest) :
    s.popTurn.popPending = { s with turns := s.turns.tail, pending := rest } := by
  simp [State.popPending, State.popTurn, hp]

/-- With no schedule left an idle engine leaves the move to the host (70_reset_and_hazards.md R270; log 2). -/
theorem nextAgent_of_idle {s : State} (he : s.engine = .idle) (ht : s.turns = []) : s.nextAgent = .host := by
  simp [State.nextAgent, ht, State.busy_eq_false.2 he]

/-- A host read that has a step, as the next operation of the program. -/
theorem hostStep_read {s : State} {addr : Word} {n : Nat} {rest : List HostOp} {tg : Target}
    (hp : s.pending = .read addr n :: rest) (ht : target s.cfg addr n = .ok tg) :
    hostStep s = .next (hostRead s.popPending addr n tg) := by
  simp [hostStep, hp, access, ht]

theorem hostWrite_of_idle {s : State} (he : s.engine = .idle) (n : Nat) (v : Word) (tg : Target) :
    hostWrite s n v tg = writeIdle s n v tg := by
  simp [hostWrite, State.busy_eq_false.2 he]

theorem hostRead_of_idle {s : State} (he : s.engine = .idle) (addr : Word) (n : Nat) (tg : Target) :
    hostRead s addr n tg = readIdle s addr n tg := by
  simp [hostRead, State.busy_eq_false.2 he]

/-- The step that is a host write with the engine idle (20_memory.md R66, R67). -/
theorem step_write_of_idle {s : State} {addr v : Word} {n : Nat} {rest : List HostOp} {tg : Target}
    (he : s.engine = .idle) (hn : s.nextAgent = .host) (hp : s.pending = .write addr n v :: rest)
    (ht : target s.cfg addr n = .ok tg) :
    step s = .next (writeIdle s.popTurn.popPending n v tg) := by
  have hidle : s.popTurn.popPending.engine = .idle := he
  rw [step_host hn, hostStep_write (s := s.popTurn) hp ht, hostWrite_of_idle hidle]

/-- The step that is a host read with the engine idle (20_memory.md R66, R67). -/
theorem step_read_of_idle {s : State} {addr : Word} {n : Nat} {rest : List HostOp} {tg : Target}
    (he : s.engine = .idle) (hn : s.nextAgent = .host) (hp : s.pending = .read addr n :: rest)
    (ht : target s.cfg addr n = .ok tg) :
    step s = .next (readIdle s.popTurn.popPending addr n tg) := by
  have hidle : s.popTurn.popPending.engine = .idle := he
  rw [step_host hn, hostStep_read (s := s.popTurn) hp ht, hostRead_of_idle hidle]

/-! ### The address map -/

/-- The row of 10_state.md R22's table that a word of the register file lies at. -/
theorem eq_regAt_iff {a : Nat} {r : RegId} :
    (a % 4 = 0 ∧ a < 0x40 ∧ r = regAt a) ↔
      (r, a) ∈ [(RegId.cmd, 0x00), (.status, 0x04), (.width, 0x08), (.height, 0x0C), (.hue, 0x10), (.sat, 0x14),
        (.luma, 0x18)] ∨ r = .reserved ∧ 0x1C ≤ a ∧ a ≤ 0x3C ∧ a % 4 = 0 := by
  simp only [List.mem_cons, Prod.mk.injEq, List.not_mem_nil, or_false]
  by_cases ha : 0x1C ≤ a
  · rw [regAt_reserved ha]
    constructor
    · rintro ⟨h4, hlt, rfl⟩; exact .inr ⟨rfl, ha, by omega, h4⟩
    · rintro (h | ⟨rfl, -, hle, h4⟩)
      · omega
      · exact ⟨h4, by omega, rfl⟩
  · have hno : ¬ (r = .reserved ∧ 0x1C ≤ a ∧ a ≤ 0x3C ∧ a % 4 = 0) := fun h => ha h.2.1
    rw [or_iff_left hno]
    replace ha : a < 0x1C := by omega
    interval_cases a <;> simp [regAt]

/-- The register file: exactly the word accesses at multiples of 4 below 0x40 (20_memory.md R61, R62, R64). -/
theorem target_eq_reg_iff {c : Config} {addr : Word} {n : Nat} {r : RegId} :
    target c addr n = .ok (.reg r) ↔
      n = 4 ∧ addr.toNat % 4 = 0 ∧ addr.toNat < 0x40 ∧ r = regAt addr.toNat := by
  constructor
  · exact target_reg
  · rintro ⟨rfl, h4, hlt, rfl⟩
    exact target_regAt c hlt h4

/-- Every buffer fits its window (20_memory.md R61). -/
theorem capacity_le_window {c : Config} (hc : c.sizesOk = true) (b : BufId) : capacity c b ≤ 0x00100000 := by
  simp only [Config.sizesOk, Bool.and_eq_true, decide_eq_true_eq, Nat.mul_assoc] at hc
  obtain ⟨hsrc, -⟩ := hc
  cases b <;> simp only [capacity, Nat.mul_assoc] <;> omega

theorem le_bufBase (b : BufId) : 0x40 ≤ bufBase b := by cases b <;> decide

theorem bufBase_mod_four (b : BufId) : bufBase b % 4 = 0 := by cases b <;> rfl

/-- An access of a buffer lies at the buffer's base plus the offset, and a word access at a multiple of 4. -/
theorem target_buf_place {c : Config} {addr : Word} {n : Nat} {b : BufId} {off : Nat}
    (h : target c addr n = .ok (.buf b off)) :
    addr.toNat = bufBase b + off ∧ (n = 4 → addr.toNat % 4 = 0) := by
  unfold target at h
  simp only at h
  split at h
  · cases h
  · split at h
    · split at h
      · cases h
      · split at h <;> cases h
    · split at h
      · cases h
      · rename_i d hwin
        have hbase := (windowOf_eq_some.1 hwin).1
        split at h
        · cases h
        · rename_i halign
          split at h
          · cases h; exact ⟨by omega, by omega⟩
          · cases h

/-- A byte access or a 4-aligned word access inside a buffer's capacity selects its place there. -/
theorem target_of_buf_place {c : Config} {addr : Word} {n : Nat} {b : BufId} {off : Nat} (hc : c.sizesOk = true)
    (hn : n = 1 ∨ n = 4 ∧ addr.toNat % 4 = 0) (haddr : addr.toNat = bufBase b + off)
    (hfit : off + n ≤ capacity c b) : target c addr n = .ok (.buf b off) := by
  have hcap := capacity_le_window hc b
  have hbase := le_bufBase b
  have hwin : windowOf addr.toNat = some b := windowOf_eq_some.2 (by omega)
  have hoff : addr.toNat - bufBase b = off := by omega
  unfold target
  simp only
  rw [if_neg (by omega), if_neg (by omega), hwin]
  simp only
  rw [if_neg (by omega), hoff, if_pos hfit]

/-- The buffers: exactly the byte accesses and the 4-aligned word accesses inside a capacity (20_memory.md R61 to
R65). -/
theorem target_eq_buf_iff {c : Config} {addr : Word} {n : Nat} {b : BufId} {off : Nat} (hc : c.sizesOk = true) :
    target c addr n = .ok (.buf b off) ↔
      (n = 1 ∨ n = 4 ∧ addr.toNat % 4 = 0) ∧ addr.toNat = bufBase b + off ∧ off + n ≤ capacity c b := by
  constructor
  · intro h
    obtain ⟨hfit, hn⟩ := target_buf h
    obtain ⟨haddr, halign⟩ := target_buf_place h
    exact ⟨hn.imp_right fun h4 => ⟨h4, halign h4⟩, haddr, hfit⟩
  · rintro ⟨hn, haddr, hfit⟩
    exact target_of_buf_place hc hn haddr hfit

/-- The table of buffers, bases and capacities (20_memory.md R61, 10_state.md R40), row by row. -/
theorem mem_bufferTable_iff {c : Config} {b : BufId} {base bytes : Nat} :
    (b, base, bytes) ∈ [(BufId.src, 0x00100000, 4 * c.rowPixels * c.maxH),
        (.idx, 0x00200000, c.rowPixels * c.maxH), (.comp, 0x00300000, 2 * c.rowPixels * c.maxH),
        (.out, 0x00400000, 4 * c.rowPixels * c.maxH)] ↔ base = bufBase b ∧ bytes = capacity c b := by
  cases b <;> simp [bufBase, capacity]

/-- Settles O56: the register file and the buffers apart, each by its own characterisation. -/
theorem accessesThatHaveAStep : Obligations.AccessesThatHaveAStep := by
  unfold Obligations.AccessesThatHaveAStep
  intro c addr n t hc
  simp only [← eq_regAt_iff, mem_bufferTable_iff]
  cases t with
  | reg r =>
    rw [target_eq_reg_iff]
    constructor
    · rintro ⟨hn, hreg⟩
      exact .inl ⟨hn, r, rfl, hreg⟩
    · rintro (⟨hn, r', ⟨⟩, hreg⟩ | ⟨-, _, _, _, _, -, ⟨⟩, -⟩)
      exact ⟨hn, hreg⟩
  | buf b off =>
    rw [target_eq_buf_iff hc]
    constructor
    · rintro ⟨hn, haddr, hfit⟩
      exact .inr ⟨hn, b, _, _, off, ⟨rfl, rfl⟩, rfl, haddr, hfit⟩
    · rintro (⟨-, _, ⟨⟩, -⟩ | ⟨hn, _, _, _, _, ⟨rfl, rfl⟩, ⟨⟩, haddr, hfit⟩)
      exact ⟨hn, haddr, hfit⟩

/-! ### Writing a value to a buffer and reading it back -/

/-- Bit `k` of byte `i` of a word is bit `8 i + k` of the word (20_memory.md R63). -/
theorem getLsbD_byteOfWord (v : Word) (i k : Nat) :
    (byteOfWord v i).getLsbD k = (decide (k < 8) && v.getLsbD (8 * i + k)) := by
  simp [byteOfWord, BitVec.getLsbD_extractLsb']

/-- The word made of `n` bytes of a word from byte `i` on holds that word's bits from `8 i` on. -/
theorem getLsbD_wordOfBytes (v : Word) (n i : Nat) {k : Nat} (hk : k < 32) :
    (wordOfBytes ((List.range' i n).map (byteOfWord v))).getLsbD k =
      (decide (k < 8 * n) && v.getLsbD (8 * i + k)) := by
  induction n generalizing i k with
  | zero => simp [wordOfBytes]
  | succ n ih =>
    simp only [List.range'_succ, List.map_cons, wordOfBytes, BitVec.getLsbD_or, BitVec.getLsbD_setWidth,
      BitVec.getLsbD_shiftLeft, getLsbD_byteOfWord]
    by_cases h8 : k < 8
    · have hlt : k < 8 * (n + 1) := by omega
      simp [hk, h8, hlt]
    · have hbit : 8 * (i + 1) + (k - 8) = 8 * i + k := by omega
      have hlt : k - 8 < 8 * n ↔ k < 8 * (n + 1) := by omega
      simp [hk, h8, ih (i + 1) (k := k - 8) (by omega), hbit, hlt]

/-- What a read of `n` bytes gives where the word `v` lies: its low byte alone, or the whole of it (20_memory.md R63;
log 23). -/
theorem wordOfBytes_bytes (v : Word) {n : Nat} (hn : n = 1 ∨ n = 4) :
    wordOfBytes ((List.range n).map (byteOfWord v)) = if n = 1 then v &&& 0x000000FF else v := by
  have hmask : ∀ k < 32, (255#32).getLsbD k = decide (k < 8) := by decide
  apply BitVec.eq_of_getLsbD_eq
  intro k hk
  rw [List.range_eq_range', getLsbD_wordOfBytes v n 0 hk]
  rcases hn with rfl | rfl
  · simp [BitVec.getLsbD_and, hmask k hk, Bool.and_comm]
  · simp [hk]

/-- The bytes read where a word has just been written are the word's, and no free value. -/
theorem bufBytes_writeBytes (m : Memory) (draws off n : Nat) (v : Word) :
    bufBytes (writeBytes m off n v) draws off n = (List.range n).map (byteOfWord v) := by
  refine List.map_congr_left fun i hi => ?_
  have hlt : i < n := List.mem_range.1 hi
  rw [read_writeBytes, if_pos (by omega), Nat.add_sub_cancel_left, Option.getD_some]

/-- A run of one more step, where the first step has a next state. -/
theorem run_succ_of_next {M : Host.Core} {s u : M.State} (n : Nat) (h : M.step s = .next u) :
    M.run (n + 1) s = M.run n u := by
  rw [Host.Core.run, h]

/-- What a write to a buffer and a read of the same place leave together. -/
theorem run_write_read {s : State} {addr v : Word} {n : Nat} {b : BufId} {off : Nat} {rest : List HostOp}
    (he : s.engine = .idle) (hturns : s.turns = []) (hp : s.pending = .write addr n v :: .read addr n :: rest)
    (ht : target s.cfg addr n = .ok (.buf b off)) :
    Host.Core.run Sys2Proof.core 2 s = .next
      (((s.popTurn.popPending.setBuf b (writeBytes (s.buf b) off n v)).popTurn.popPending.reply addr n
        (if n = 1 then v &&& 0x000000FF else v)).drew n) := by
  obtain ⟨-, hn⟩ := target_buf ht
  have hwrite : step s = .next (s.popTurn.popPending.setBuf b (writeBytes (s.buf b) off n v)) := by
    rw [step_write_of_idle he (nextAgent_of_idle he hturns) hp ht, writeIdle, State.popPending_buf, State.popTurn_buf]
  generalize hu : s.popTurn.popPending.setBuf b (writeBytes (s.buf b) off n v) = u at hwrite
  have hue : u.engine = .idle := by simp [← hu, he]
  have hut : u.turns = [] := by simp [← hu, hturns]
  have hup : u.pending = .read addr n :: rest := by simp [← hu, hp]
  have hutarget : target u.cfg addr n = .ok (.buf b off) := by simpa [← hu] using ht
  have hubuf : u.buf b = writeBytes (s.buf b) off n v := by simp [← hu]
  have hread := step_read_of_idle hue (nextAgent_of_idle hue hut) hup hutarget
  rw [readIdle, State.popPending_buf, State.popTurn_buf, hubuf, bufBytes_writeBytes, wordOfBytes_bytes v hn] at hread
  rw [run_succ_of_next (M := Sys2Proof.core) 1 hwrite, run_succ_of_next (M := Sys2Proof.core) 0 hread]
  rfl

/-- Settles O55. -/
theorem hostWriteThenReadBack : Obligations.HostWriteThenReadBack := by
  unfold Obligations.HostWriteThenReadBack
  intro s addr v n b off rest he hturns hp ht
  refine ⟨_, run_write_read he hturns hp ht, by simp [hp], by simp, fun i hi => ?_, fun a ha => ?_, fun d hd => ?_⟩
  · have hin : off ≤ off + i ∧ off + i < off + n := by omega
    simp [read_writeBytes, hin, byteOfWord]
  · have hout : ¬ (off ≤ a ∧ a < off + n) := by omega
    simp [read_writeBytes, hout]
  · simp [State.buf_setBuf_other _ _ hd]

/-! ### The registers -/

/-- The 16 low bits of a register word, as the field they are (10_state.md R25, R26). -/
theorem setWidth_sixteen (v : Word) : v.setWidth 16 = v.extractLsb' 0 16 := by
  simp [BitVec.setWidth_eq_extractLsb']

/-- A dimension reads under sixteen zero bits (10_state.md R25, R26). -/
theorem setWidth_thirtyTwo (x : Half) : x.setWidth 32 = (0 : BitVec 16) ++ x := by
  simp [BitVec.setWidth_eq_append]

/-- STATUS with the engine idle: BUSY reads 0 (10_state.md R24, R42). -/
theorem statusWord_of_idle {s : State} (he : s.engine = .idle) :
    s.statusWord = (0 : BitVec 24) ++ s.status.errCode ++ BitVec.ofBool s.status.haz ++
      BitVec.ofBool s.status.err ++ BitVec.ofBool s.status.done ++ (0 : BitVec 1) := by
  rw [State.statusWord, State.busy_eq_false.2 he]
  rfl

/-- Settles O54. -/
theorem registerWritesStoreWritableBits : Obligations.RegisterWritesStoreWritableBits := by
  unfold Obligations.RegisterWritesStoreWritableBits
  intro s addr v rest he hn s'
  have hidle : s'.engine = .idle := he
  have reserved : 0x1C ≤ addr.toNat → addr.toNat ≤ 0x3C → addr.toNat % 4 = 0 →
      target s.cfg addr 4 = .ok (.reg .reserved) := fun hlo hhi h4 =>
    target_eq_reg_iff.2 ⟨rfl, h4, by omega, (regAt_reserved hlo).symm⟩
  refine ⟨fun hp => ?_, fun hp => ?_⟩
  · have write : ∀ r, target s.cfg addr 4 = .ok (.reg r) → step s = .next (s'.writeReg r v) :=
      fun r ht => by
      rw [step_write_of_idle he hn hp ht, popTurn_popPending hp]
      rfl
    refine ⟨?_, ?_, ?_, ?_, ?_, ?_, fun hlo hhi h4 => write _ (reserved hlo hhi h4)⟩ <;> rintro rfl
    · exact write .status rfl
    · exact setWidth_sixteen v ▸ write .width rfl
    · exact setWidth_sixteen v ▸ write .height rfl
    · exact write .hue rfl
    · exact write .sat rfl
    · exact write .luma rfl
  · intro returns
    have read : ∀ r, target s.cfg addr 4 = .ok (.reg r) → returns (s'.readReg r) :=
      fun r ht => by
      change step s = _
      rw [step_read_of_idle he hn hp ht, popTurn_popPending hp]
      rfl
    refine ⟨?_, ?_, ?_, ?_, ?_, ?_, ?_, fun hlo hhi h4 => read _ (reserved hlo hhi h4)⟩ <;> rintro rfl
    · exact read .cmd rfl
    · exact statusWord_of_idle hidle ▸ read .status rfl
    · exact setWidth_thirtyTwo s.width ▸ read .width rfl
    · exact setWidth_thirtyTwo s.height ▸ read .height rfl
    · exact read .hue rfl
    · exact read .sat rfl
    · exact read .luma rfl

/-! ### What a raster command reads -/

@[simp] theorem State.setBuf_latch (s : State) (b : BufId) (m : Memory) : (s.setBuf b m).latch = s.latch := by
  cases b <;> rfl

@[simp] theorem State.setBuf_latchedW (s : State) (b : BufId) (m : Memory) :
    (s.setBuf b m).latchedW = s.latchedW := by simp [State.latchedW]

@[simp] theorem State.setBuf_latchedH (s : State) (b : BufId) (m : Memory) :
    (s.setBuf b m).latchedH = s.latchedH := by simp [State.latchedH]

theorem State.DimsLegal.setBuf {s : State} (hd : s.DimsLegal) (b : BufId) (m : Memory) : (s.setBuf b m).DimsLegal := by
  simpa [State.DimsLegal] using hd

/-- Two ends of a raster command with the same STATUS and, without an error, the same `n` bytes of its destination
(20_memory.md R70). -/
def SameResult (dst : BufId) (n : Nat) (t u : State) : Prop :=
  t.status = u.status ∧ (t.status.err = false → ∀ off < n, (t.buf dst).read off = (u.buf dst).read off)

/-- The same error, whatever a buffer holds. -/
theorem sameResult_raiseErr (s : State) (dst : BufId) (m : Memory) (n : Nat) (e : ErrCode) :
    SameResult dst n (s.raiseErr e) ((s.setBuf dst m).raiseErr e) :=
  ⟨by simp, fun herr => by simp at herr⟩

/-- The same bytes written over the whole region, whatever the destination held. -/
theorem sameResult_finish (s : State) (dst : BufId) (m : Memory) {bytes : List Byte} {n : Nat} (un : Bool)
    (hlen : bytes.length = n) : SameResult dst n (s.finish dst bytes un) ((s.setBuf dst m).finish dst bytes un) :=
  ⟨by simp, fun _ off ho => by rw [finish_read _ _ _ (hlen ▸ ho), finish_read _ _ _ (hlen ▸ ho)]⟩

/-- QUANT reads SRC and writes IDX (40_quantizer.md R104). -/
theorem quant_sameResult {s t u : State} {m : Memory} (hd : s.DimsLegal) (ht : execQuant s = .next t)
    (hu : execQuant (s.setBuf .idx m) = .next u) : SameResult .idx (s.latchedW * s.latchedH) t u := by
  rw [execQuant, withDims_ok (dims_true hd)] at ht
  rw [execQuant, withDims_ok (dims_true (hd.setBuf _ _))] at hu
  cases ht
  cases hu
  exact sameResult_finish s .idx m _ (length_quantBytes _ _ _ _)

/-- An illegal index in the region ends an ENC command on legal dimensions (60_exceptions.md R235, R236). -/
theorem runEnc_of_indexBad {s : State} (at_ : Nat → Nat → Nat → Nat → Option Byte) (hd : s.DimsLegal)
    (hi : indexBad s.idx (s.latchedW * s.latchedH) = true) : runEnc s at_ = .next (s.raiseErr .index) := by
  rw [runEnc, withDims_ok (dims_true hd), if_pos hi]

/-- ENC reads IDX, the index check included, and writes COMP (41_encoder.md R130). -/
theorem enc_sameResult {s t u : State} {m : Memory} {at_ : Nat → Nat → Nat → Nat → Option Byte} (hd : s.DimsLegal)
    (ht : runEnc s at_ = .next t) (hu : runEnc (s.setBuf .comp m) at_ = .next u) :
    SameResult .comp (2 * s.latchedW * s.latchedH) t u := by
  have hd' : (s.setBuf .comp m).DimsLegal := hd.setBuf _ _
  cases hbad : indexBad s.idx (s.latchedW * s.latchedH) with
  | true =>
    rw [runEnc_of_indexBad at_ hd hbad] at ht
    rw [runEnc_of_indexBad at_ hd' hbad] at hu
    cases ht
    cases hu
    exact sameResult_raiseErr s .comp m _ .index
  | false =>
    rw [runEnc_ok at_ hd hbad] at ht
    rw [runEnc_ok at_ hd' hbad] at hu
    cases ht
    cases hu
    exact sameResult_finish s .comp m _ (length_encBytes _ _ _ _)

/-- A DEC command that has a next state is not an accurate one under a sub-pixel shift (42_decoder.md R168). -/
theorem accSubpixel_of_exec_decOf {s t : State} {me : Method} {mo : Mode} (h : exec (decOf me mo) s = .next t) :
    me = .accurate → s.cfg.accSubpixel = 0 := by
  rintro rfl
  by_contra hz
  have hx : exec (decOf .accurate mo) s = runAcc s mo := by cases mo <;> rfl
  rw [hx, runAcc_of_nonzero hz] at h
  cases h

/-- DEC reads COMP and writes OUT (42_decoder.md R176). -/
theorem dec_sameResult {s t u : State} {m : Memory} {me : Method} {mo : Mode} (hd : s.DimsLegal)
    (ht : exec (decOf me mo) s = .next t) (hu : exec (decOf me mo) (s.setBuf .out m) = .next u) :
    SameResult .out (4 * s.latchedW * s.latchedH) t u := by
  rw [exec_decOf_ok mo (accSubpixel_of_exec_decOf ht) hd] at ht
  rw [exec_decOf_ok mo (accSubpixel_of_exec_decOf hu) (hd.setBuf _ _)] at hu
  cases ht
  cases hu
  exact sameResult_finish s .out m _ (by rw [length_decBytes, Nat.mul_assoc])

/-- Settles O60: each command by what it reads. -/
theorem commandsDoNotReadDestination : Obligations.CommandsDoNotReadDestination := by
  unfold Obligations.CommandsDoNotReadDestination
  intro s t u m i dst n hd hi ht hu
  change SameResult dst n t u
  rcases hi with ⟨rfl, rfl, rfl⟩ | ⟨rfl | rfl, rfl, rfl⟩ | ⟨⟨me, mo, rfl⟩, rfl, rfl⟩
  · exact quant_sameResult hd ht hu
  · exact enc_sameResult (at_ := encIAt s.cfg s.idx) hd ht hu
  · exact enc_sameResult (at_ := encFAt s.cfg s.idx) hd ht hu
  · exact dec_sameResult hd ht hu

end Sys2Proof.Machine


/-! SUPPORT. The command words (30_encoding.md): the fields of a word and the word of fields are inverse to each other,
the decoder accepts exactly the fields of a command, and so do the five field checks. -/

namespace Sys2Proof.Machine

/-! ### Fields and words -/

/-- The five fields cover the word: no bit is dropped (30_encoding.md R81). -/
theorem wordOf_fieldsOf (w : Word) : wordOf (fieldsOf w) = w := by
  have hmode : w.extractLsb' 9 23 ++ w.extractLsb' 7 2 = w.extractLsb' 7 25 :=
    BitVec.extractLsb'_append_extractLsb'_eq_extractLsb' rfl
  have hmethod : w.extractLsb' 7 25 ++ w.extractLsb' 5 2 = w.extractLsb' 5 27 :=
    BitVec.extractLsb'_append_extractLsb'_eq_extractLsb' rfl
  have hp : w.extractLsb' 5 27 ++ w.extractLsb' 4 1 = w.extractLsb' 4 28 :=
    BitVec.extractLsb'_append_extractLsb'_eq_extractLsb' rfl
  have hop : w.extractLsb' 4 28 ++ w.extractLsb' 0 4 = w.extractLsb' 0 32 :=
    BitVec.extractLsb'_append_extractLsb'_eq_extractLsb' rfl
  rw [wordOf, fieldsOf, hmode, hmethod, hp, hop, BitVec.extractLsb'_eq_self]

/-- The five fields do not overlap (30_encoding.md R81). -/
theorem fieldsOf_wordOf (f : CmdFields) : fieldsOf (wordOf f) = f := by
  obtain ⟨op, p, method, mode, rsvd⟩ := f
  have hop : (rsvd ++ mode ++ method ++ p ++ op).extractLsb' 0 4 = op := BitVec.extractLsb'_append_eq_right
  have hp : (rsvd ++ mode ++ method ++ p ++ op).extractLsb' 4 1 = p := by
    rw [BitVec.extractLsb'_append_eq_of_le (by decide)]
    exact BitVec.extractLsb'_append_eq_right
  have hmethod : (rsvd ++ mode ++ method ++ p ++ op).extractLsb' 5 2 = method := by
    iterate 2 rw [BitVec.extractLsb'_append_eq_of_le (by decide)]
    exact BitVec.extractLsb'_append_eq_right
  have hmode : (rsvd ++ mode ++ method ++ p ++ op).extractLsb' 7 2 = mode := by
    iterate 3 rw [BitVec.extractLsb'_append_eq_of_le (by decide)]
    exact BitVec.extractLsb'_append_eq_right
  have hrsvd : (rsvd ++ mode ++ method ++ p ++ op).extractLsb' 9 23 = rsvd := by
    iterate 4 rw [BitVec.extractLsb'_append_eq_of_le (by decide)]
    exact BitVec.extractLsb'_eq_self
  rw [wordOf, fieldsOf]
  congr 1

/-- A command's word is the one whose fields are the command's (30_encoding.md R88). -/
theorem eq_encode_iff {w : Word} {i : Instr} : w = encode i ↔ fieldsOf w = encodeFields i :=
  ⟨fun h => by rw [h, encode, fieldsOf_wordOf], fun h => by rw [encode, ← h, wordOf_fieldsOf]⟩

/-! ### The decoder by fields -/

/-- A decoded word has its reserved bits zero and is judged by its other fields (30_encoding.md R86, R87). -/
theorem decode_eq_ok_iff {w : Word} {i : Instr} :
    decode w = .ok i ↔ (fieldsOf w).rsvd = 0 ∧ decodeFields (fieldsOf w) = .ok i := by
  unfold decode
  split
  · next h => simp [h]
  · next h => simpa using fun hr => absurd hr h

theorem unlessUsed_eq_ok_iff {unused : Bool} {i j : Instr} :
    unlessUsed unused i = .ok j ↔ unused = true ∧ i = j := by
  cases unused <;> simp [unlessUsed]

/-- METHOD's bits of a method (30_encoding.md R84). -/
def methodBits : Method → BitVec 2
  | .fast => 0
  | .accurate => 1

/-- MODE's bits of a mode (30_encoding.md R85). -/
def modeBits : Mode → BitVec 2
  | .rgb => 0
  | .luma => 1
  | .chroma => 2

theorem eq_methodBits_of_methodOf {m : BitVec 2} {me : Method} (h : methodOf m = .ok me) : m = methodBits me := by
  unfold methodOf at h
  split at h
  · cases h; assumption
  split at h
  · cases h; assumption
  · cases h

theorem eq_modeBits_of_modeOf {m : BitVec 2} {mo : Mode} (h : modeOf m = .ok mo) : m = modeBits mo := by
  unfold modeOf at h
  split at h
  · cases h; assumption
  split at h
  · cases h; assumption
  split at h
  · cases h; assumption
  · cases h

/-- MODE's bits are all patterns but 0b11 (30_encoding.md R85). -/
theorem exists_eq_modeBits {m : BitVec 2} (h : m ≠ 3) : ∃ mo, m = modeBits mo := by
  have hm : m = 0 ∨ m = 1 ∨ m = 2 := by
    revert m
    decide
  rcases hm with hm | hm | hm
  · exact ⟨.rgb, hm⟩
  · exact ⟨.luma, hm⟩
  · exact ⟨.chroma, hm⟩

/-- The DEC rows of the opcode table by method and mode (30_encoding.md R88). -/
theorem encodeFields_decOf (me : Method) (mo : Mode) :
    encodeFields (decOf me mo) = ⟨0x3, 0, methodBits me, modeBits mo, 0⟩ := by
  cases me <;> cases mo <;> rfl

/-- DEC's command comes from a METHOD and a MODE that both have a value. -/
theorem bind_decOf_eq_ok {em : Except Illegal Method} {eo : Except Illegal Mode} {i : Instr}
    (h : (do let me ← em; let mo ← eo; return decOf me mo) = Except.ok i) :
    ∃ me mo, em = .ok me ∧ eo = .ok mo ∧ decOf me mo = i := by
  cases em with
  | error e => cases h
  | ok me =>
    cases eo with
    | error e => cases h
    | ok mo => cases h; exact ⟨me, mo, rfl, rfl, rfl⟩

/-! ### The fields of a command

What ENC's P and DEC's METHOD and MODE choose, for the decoder's arms and for the field checks alike. -/

theorem cmdFields_ext {f g : CmdFields} (hop : f.op = g.op) (hp : f.p = g.p) (hmethod : f.method = g.method)
    (hmode : f.mode = g.mode) (hrsvd : f.rsvd = g.rsvd) : f = g := by
  cases f
  cases g
  congr

/-- ENC: P chooses between the two encoders (30_encoding.md R83). -/
theorem eq_encodeFields_enc {f : CmdFields} (hop : f.op = 0x2) (hmethod : f.method = 0) (hmode : f.mode = 0)
    (hr : f.rsvd = 0) : f = encodeFields (if f.p = 1 then .encF else .encI) := by
  rcases BitVec.eq_zero_or_eq_one f.p with hp | hp <;> rw [hp] <;> exact cmdFields_ext hop hp hmethod hmode hr

/-- DEC: METHOD and MODE choose among the six decoders (30_encoding.md R84, R85). -/
theorem eq_encodeFields_dec {f : CmdFields} {me : Method} {mo : Mode} (hop : f.op = 0x3) (hp : f.p = 0)
    (hmethod : f.method = methodBits me) (hmode : f.mode = modeBits mo) (hr : f.rsvd = 0) :
    f = encodeFields (decOf me mo) :=
  encodeFields_decOf me mo ▸ cmdFields_ext hop hp hmethod hmode hr

/-! ### The decoder is the encoder's inverse -/

/-- The decoder's arm of a command whose word holds its OP alone. -/
theorem eq_encodeFields_of_unlessUsed {f : CmdFields} {i j : Instr} (hr : f.rsvd = 0)
    (h : unlessUsed (f.p == 0 && f.method == 0 && f.mode == 0) j = .ok i) (hj : encodeFields j = ⟨f.op, 0, 0, 0, 0⟩) :
    f = encodeFields i := by
  obtain ⟨hzero, rfl⟩ := unlessUsed_eq_ok_iff.1 h
  simp only [Bool.and_eq_true, beq_iff_eq] at hzero
  obtain ⟨⟨hp, hmethod⟩, hmode⟩ := hzero
  exact hj ▸ cmdFields_ext rfl hp hmethod hmode hr

/-- Fields that decode to a command are that command's, by the OP that `decodeFields` branches on. -/
theorem eq_encodeFields_of_decodeFields {f : CmdFields} {i : Instr} (hr : f.rsvd = 0) (h : decodeFields f = .ok i) :
    f = encodeFields i := by
  unfold decodeFields at h
  split at h
  · next hop => exact eq_encodeFields_of_unlessUsed hr h (by rw [hop]; rfl)
  split at h
  · next hop => exact eq_encodeFields_of_unlessUsed hr h (by rw [hop]; rfl)
  split at h
  · next hop =>
    obtain ⟨hzero, rfl⟩ := unlessUsed_eq_ok_iff.1 h
    simp only [Bool.and_eq_true, beq_iff_eq] at hzero
    obtain ⟨hmethod, hmode⟩ := hzero
    exact eq_encodeFields_enc hop hmethod hmode hr
  split at h
  · next hop =>
    split at h
    · next hp =>
      obtain ⟨me, mo, hme, hmo, rfl⟩ := bind_decOf_eq_ok h
      exact eq_encodeFields_dec hop hp (eq_methodBits_of_methodOf hme) (eq_modeBits_of_modeOf hmo) hr
    · cases h
  split at h
  · next hop => exact eq_encodeFields_of_unlessUsed hr h (by rw [hop]; rfl)
  · cases h

/-- Settles O2: `decode_encode` is one direction; in the other the fields of a decoded word are the command's, and the
fields determine the word. -/
theorem decodeIsExactlyEncode : Obligations.DecodeIsExactlyEncode := by
  unfold Obligations.DecodeIsExactlyEncode
  intro w i
  refine ⟨fun h => ?_, fun h => h ▸ decode_encode i⟩
  obtain ⟨hr, hf⟩ := decode_eq_ok_iff.1 h
  exact eq_encode_iff.2 (eq_encodeFields_of_decodeFields hr hf)

/-! ### The field checks -/

theorem encodeFields_wellFormed (i : Instr) : (encodeFields i).wellFormed = true := by
  cases i <;> rfl

/-- The five checks as equations between fields (30_encoding.md R82 to R86). -/
theorem cmdFields_wellFormed_iff {f : CmdFields} : f.wellFormed = true ↔
    f.rsvd = 0 ∧ (f.op = 0x0 ∨ f.op = 0x1 ∨ f.op = 0x2 ∨ f.op = 0x3 ∨ f.op = 0xF) ∧ (f.op = 0x2 ∨ f.p = 0) ∧
      (f.method = 0 ∨ f.op = 0x3 ∧ f.method = 1) ∧ (f.mode = 0 ∨ f.op = 0x3 ∧ f.mode ≠ 3) := by
  simp [CmdFields.wellFormed, CmdFields.rsvdOk, CmdFields.opOk, CmdFields.pOk, CmdFields.methodOk, CmdFields.modeOk,
    and_assoc, or_assoc]

/-- DEC's METHOD and MODE, each past its check, are those of a method and a mode (30_encoding.md R84, R85). -/
theorem exists_dec_of_wellFormed {f : CmdFields} (hop : f.op = 0x3) (hp : f.p = 0)
    (hmethod : f.method = 0 ∨ f.method = 1) (hmode : f.mode = 0 ∨ f.mode ≠ 3) (hr : f.rsvd = 0) :
    ∃ i, f = encodeFields i := by
  have hmode3 : f.mode ≠ 3 := hmode.elim (fun h => by rw [h]; decide) id
  obtain ⟨mo, hmo⟩ := exists_eq_modeBits hmode3
  rcases hmethod with hm | hm
  · exact ⟨decOf .fast mo, eq_encodeFields_dec hop hp hm hmo hr⟩
  · exact ⟨decOf .accurate mo, eq_encodeFields_dec hop hp hm hmo hr⟩

/-- Fields that pass every check are those of a command: outside ENC and DEC only OP is free, ENC leaves P free, and DEC
a METHOD and a MODE that have a value (30_encoding.md R88). -/
theorem exists_eq_encodeFields_of_wellFormed {f : CmdFields} (h : f.wellFormed = true) : ∃ i, f = encodeFields i := by
  obtain ⟨hr, hops, hp, hmethod, hmode⟩ := cmdFields_wellFormed_iff.1 h
  rcases hops with hop | hop | hop | hop | hop <;>
    simp only [hop, BitVec.ofNat_eq_ofNat, BitVec.reduceEq, true_or, true_and, false_or, false_and, or_false, ne_eq]
      at hp hmethod hmode
  · exact ⟨.nop, cmdFields_ext hop hp hmethod hmode hr⟩
  · exact ⟨.quant, cmdFields_ext hop hp hmethod hmode hr⟩
  · exact ⟨_, eq_encodeFields_enc hop hmethod hmode hr⟩
  · exact exists_dec_of_wellFormed hop hp hmethod hmode hr
  · exact ⟨.srst, cmdFields_ext hop hp hmethod hmode hr⟩

/-- Settles O3: a word is a command's exactly where its fields are, and the checks single those fields out. -/
theorem legalWordsAreWellFormedFields : Obligations.LegalWordsAreWellFormedFields := by
  unfold Obligations.LegalWordsAreWellFormedFields
  intro w
  simp only [decodeIsExactlyEncode w, eq_encode_iff]
  exact ⟨fun ⟨i, hi⟩ => hi ▸ encodeFields_wellFormed i, exists_eq_encodeFields_of_wellFormed⟩

/-! ### The printed words -/

/-- The opcode table's numbering gives the decoder the whole word (30_encoding.md R80). -/
theorem decodeTableWord_toNat (w : Word) : decodeTableWord 32 w.toNat = (decode w).toOption := by
  rw [decodeTableWord, Nat.mod_eq_of_lt w.isLt, BitVec.ofNat_toNat, BitVec.setWidth_eq]

/-- Settles O1. -/
theorem tableWordsDecode : Obligations.TableWordsDecode := by
  unfold Obligations.TableWordsDecode
  refine ⟨by decide, fun i => ?_⟩
  rw [decodeTableWord_toNat, decode_encode]
  rfl

end Sys2Proof.Machine


/-! SUPPORT. The palette quantizer (40_quantizer.md): the order its scan finds the first of, the range of its distance,
and what QUANT leaves in IDX. -/

namespace Sys2Proof.Machine

/-! ### The scan's order -/

/-- Entry `i` comes before entry `j` for a scan that keeps the first of the nearest (40_quantizer.md R103): it is at
least as near, and strictly nearer where `j` is the lower index. It is a preorder. -/
def Precedes (d : Fin 16 → Int) (i j : Fin 16) : Prop := d i ≤ d j ∧ (j < i → d i < d j)

theorem Precedes.refl (d : Fin 16 → Int) (i : Fin 16) : Precedes d i i := ⟨le_rfl, fun h => absurd h (lt_irrefl i)⟩

theorem Precedes.trans {d : Fin 16 → Int} {i j k : Fin 16} (hij : Precedes d i j) (hjk : Precedes d j k) :
    Precedes d i k := by
  obtain ⟨hle, hlt⟩ := hij
  obtain ⟨hle', hlt'⟩ := hjk
  refine ⟨hle.trans hle', fun hki => ?_⟩
  rcases lt_or_ge k j with hkj | hjk
  · exact hle.trans_lt (hlt' hkj)
  · exact (hlt (hjk.trans_lt hki)).trans_le hle'

/-- One step of the scan comes before both the entry held and the later one it looks at. -/
theorem nearer_precedes (d : Fin 16 → Int) {b i : Fin 16} (hbi : b < i) :
    Precedes d (nearer d b i) b ∧ Precedes d (nearer d b i) i := by
  unfold nearer
  split
  · next hlt => exact ⟨⟨hlt.le, fun _ => hlt⟩, .refl d i⟩
  · next hge => exact ⟨.refl d b, not_lt.1 hge, fun hib => absurd hib hbi.asymm⟩

theorem nearer_eq_or (d : Fin 16 → Int) (b i : Fin 16) : nearer d b i = b ∨ nearer d b i = i := by
  unfold nearer
  split
  · exact .inr rfl
  · exact .inl rfl

/-- A scan in rising index order ends with an entry that comes before every one it saw. -/
theorem foldl_nearer_precedes (d : Fin 16 → Int) {b : Fin 16} {l : List (Fin 16)} (hl : (b :: l).Pairwise (· < ·)) :
    ∀ j ∈ b :: l, Precedes d (l.foldl (nearer d) b) j := by
  induction l generalizing b with
  | nil => simp [Precedes.refl]
  | cons i l ih =>
    obtain ⟨hb, hil⟩ := List.pairwise_cons.1 hl
    obtain ⟨hi, hl⟩ := List.pairwise_cons.1 hil
    obtain ⟨hbi, hbl⟩ := List.forall_mem_cons.1 hb
    have hrising : (nearer d b i :: l).Pairwise (· < ·) := by
      rcases nearer_eq_or d b i with h | h <;> rw [h]
      · exact List.pairwise_cons.2 ⟨hbl, hl⟩
      · exact hil
    obtain ⟨hheld, hrest⟩ := List.forall_mem_cons.1 (ih hrising)
    obtain ⟨hnb, hni⟩ := nearer_precedes d hbi
    exact List.forall_mem_cons.2 ⟨hheld.trans hnb, List.forall_mem_cons.2 ⟨hheld.trans hni, hrest⟩⟩

theorem scanPalette_precedes (pal : Vector (Vec3 Byte) 16) (c : Vec3 Byte) (j : Fin 16) :
    Precedes (paletteDist pal c) (scanPalette pal c) j :=
  foldl_nearer_precedes _ (b := 0) (List.pairwise_lt_finRange 16) j (List.mem_finRange j)

/-! ### quantize -/

@[simp] theorem quantize_black (pal : Vector (Vec3 Byte) 16) : quantize pal ⟨0, 0, 0⟩ = 0 := if_pos rfl

@[simp] theorem quantize_white (pal : Vector (Vec3 Byte) 16) : quantize pal ⟨255, 255, 255⟩ = 15 := by
  rw [quantize, if_neg (by decide), if_pos rfl]

theorem quantize_eq_scanPalette (pal : Vector (Vec3 Byte) 16) {c : Vec3 Byte} (hblack : c ≠ ⟨0, 0, 0⟩)
    (hwhite : c ≠ ⟨255, 255, 255⟩) : quantize pal c = scanPalette pal c := by
  rw [quantize, if_neg hblack, if_neg hwhite]

/-- Settles O24. -/
theorem quantizeFastPaths : Obligations.QuantizeFastPaths := by
  unfold Obligations.QuantizeFastPaths
  exact fun pal => ⟨quantize_black pal, quantize_white pal⟩

/-- Settles O25: off the fast paths the result is the scan's, which comes before every entry. -/
theorem quantizeIsLeastNearest : Obligations.QuantizeIsLeastNearest := by
  unfold Obligations.QuantizeIsLeastNearest
  intro pal c hblack hwhite j
  rw [quantize_eq_scanPalette pal hblack hwhite]
  exact scanPalette_precedes pal c j

/-! ### The distance -/

theorem channelDist_nonneg (a b : Byte) : 0 ≤ channelDist a b := sq_nonneg _

/-- Two bytes differ by at most 255. -/
theorem channelDist_le (a b : Byte) : channelDist a b ≤ 255 ^ 2 :=
  sq_le_sq' (by omega) (by omega)

/-- Settles O26: three channels of at most 255² each. -/
theorem paletteDistanceRange : Obligations.PaletteDistanceRange := by
  unfold Obligations.PaletteDistanceRange
  intro pal c i
  refine ⟨rfl, ?_, ?_⟩
  · exact add_nonneg (add_nonneg (channelDist_nonneg _ _) (channelDist_nonneg _ _)) (channelDist_nonneg _ _)
  · exact add_le_add_three (channelDist_le _ _) (channelDist_le _ _) (channelDist_le _ _)

/-! ### What QUANT leaves -/

/-- The index of a pixel reads that pixel's R, G and B alone (40_quantizer.md R104, R105). -/
theorem quantAt_congr (c : Config) {m n : Memory} {k : Nat} (h : ∀ ch < 3, m.read (4 * k + ch) = n.read (4 * k + ch)) :
    quantAt c m k = quantAt c n k := by
  have hr : m.read (4 * k) = n.read (4 * k) := h 0 (by decide)
  rw [quantAt, quantAt, srcPixel, srcPixel, hr, h 1 (by decide), h 2 (by decide)]

theorem quantAt_of_read (c : Config) {m : Memory} {k : Nat} {r g b : Byte} (hr : m.read (4 * k) = some r)
    (hg : m.read (4 * k + 1) = some g) (hb : m.read (4 * k + 2) = some b) :
    quantAt c m k = some (indexByte (quantize c.palette ⟨r, g, b⟩)) := by
  rw [quantAt, srcPixel, hr, hg, hb]
  rfl

theorem quantUninit_of_written {s : State} (h : s.SrcWritten) :
    quantUninit s.src (s.latchedW * s.latchedH) = false := by
  rw [← Bool.not_eq_true, quantUninit_iff]
  rintro ⟨k, hk, ch, hch, hnone⟩
  simpa [hnone] using h k hk ch hch

/-- What QUANT on legal dimensions answers (40_quantizer.md R104). -/
theorem exec_quant_ok {s : State} (hd : s.DimsLegal) :
    exec .quant s = .next (s.finish .idx (quantBytes s.cfg s.src s.draws (s.latchedW * s.latchedH))
      (quantUninit s.src (s.latchedW * s.latchedH))) := by
  change execQuant s = _
  rw [execQuant, withDims_ok (dims_true hd)]

/-- The IDX byte of a pixel after QUANT: its index, or a drawn one where it has none. -/
theorem read_idx_of_exec_quant {s t : State} {k : Nat} (hd : s.DimsLegal) (h : exec .quant s = .next t)
    (hk : k < s.latchedW * s.latchedH) :
    t.idx.read k = some ((quantAt s.cfg s.src k).getD (drawIndex s.draws k)) := by
  rw [exec_quant_ok hd] at h
  cases h
  rw [← State.buf_idx, finish_read _ _ _ (by rwa [length_quantBytes]), getElem?_quantBytes _ _ _ hk]

/-- Settles O27. -/
theorem quantWritesIndices : Obligations.QuantWritesIndices := by
  unfold Obligations.QuantWritesIndices
  intro s hd hsrc
  refine ⟨_, exec_quant_ok hd, finish_rasterDone s .idx _ (length_quantBytes _ _ _ _), ?_, ?_⟩
  · rw [quantUninit_of_written hsrc, State.finish_faults_clean]
  · intro k hk r g b hr hg hb
    rw [read_idx_of_exec_quant hd (exec_quant_ok hd) hk, quantAt_of_read s.cfg hr hg hb]
    rfl

/-- Settles O28: the two runs differ in SRC alone, of which a pixel's byte reads three bytes. -/
theorem quantReadsOnlyOwnRgb : Obligations.QuantReadsOnlyOwnRgb := by
  unfold Obligations.QuantReadsOnlyOwnRgb
  intro s m k t u hd hk hsame ht hu
  have hread : u.idx.read k = some ((quantAt s.cfg m k).getD (drawIndex s.draws k)) :=
    read_idx_of_exec_quant (hd.setBuf .src m) hu (by simpa using hk)
  rw [read_idx_of_exec_quant hd ht hk, hread, quantAt_congr s.cfg hsame]

end Sys2Proof.Machine

/-! SUPPORT. The composite encoder (41_encoder.md): the integer sample's range, what both ENC commands leave in COMP,
the edge condition, and the order that the float sample's arithmetic keeps. -/

namespace Sys2Proof.Machine

/-! ### The integer sample -/

/-- A number held to 255 is its byte's value. -/
theorem toNat_ofNat_min (n : Nat) : (BitVec.ofNat 8 (min n 255)).toNat = min n 255 := by
  rw [BitVec.toNat_ofNat]
  exact Nat.mod_eq_of_lt (Nat.lt_succ_of_le (min_le_right n 255))

theorem toNat_sampleI (c : Config) (hue : Fin 8) (bright : Bool) (p : Fin 8) :
    (sampleI c hue bright p).toNat = min (sampleIRaw c hue bright p) 255 := toNat_ofNat_min _

theorem scaledCell_le {v : Nat} (hv : v ≤ 255) : (v * 768) >>> 10 ≤ 191 := by
  rw [Nat.shiftRight_eq_div_pow]
  omega

theorem sampleIRaw_source {c : Config} (hlit : c.lit = sourceLiterals) (hue : Fin 8) (bright : Bool) (p : Fin 8) :
    sampleIRaw c hue bright p = ((waveBCell c hue p).toNat * 768) >>> 10 + if bright then 64 else 0 := by
  rw [sampleIRaw, hlit]
  rfl

theorem sampleIRaw_source_le {c : Config} (hlit : c.lit = sourceLiterals) (hue : Fin 8) (bright : Bool) (p : Fin 8) :
    sampleIRaw c hue bright p ≤ 255 := by
  have hgain : (if bright then 64 else 0) ≤ 64 := by split <;> omega
  rw [sampleIRaw_source hlit]
  exact Nat.add_le_add (scaledCell_le (Nat.le_of_lt_succ (waveBCell c hue p).isLt)) hgain

/-- Settles O29: at most 191 + 64. -/
theorem integerClampIsVacuous : Obligations.IntegerClampIsVacuous := by
  unfold Obligations.IntegerClampIsVacuous
  refine ⟨fun v hv => scaledCell_le hv, fun c hue bright p hlit => ?_⟩
  have hle := sampleIRaw_source_le hlit hue bright p
  refine ⟨hle, by rw [toNat_sampleI, min_eq_left hle], fun hcell hbright => ?_⟩
  rw [sampleI, sampleIRaw, hcell, hlit, hbright]
  rfl

/-! ### What an ENC command on a legal raster leaves -/

/-- Both ENC commands on legal dimensions and indices: the frame of 41_encoder.md R130, and every sample that has a
value at its place in COMP. -/
theorem runEnc_legal {s : State} (at_ : Nat → Nat → Nat → Nat → Option Byte) (hd : s.DimsLegal) (hi : s.IdxLegal) :
    ∃ t, runEnc s at_ = .next t ∧ s.RasterDone t .comp (2 * s.latchedW * s.latchedH) ∧ t.faults = s.faults ∧
      ∀ x < s.latchedW, ∀ y < s.latchedH, ∀ h < 2, ∀ b, at_ s.latchedW x y h = some b →
        t.comp.read (y * (2 * s.latchedW) + (2 * x + h)) = some b := by
  refine ⟨_, runEnc_ok at_ hd (indexBad_of_legal hi), finish_rasterDone s .comp _ (length_encBytes _ _ _ _), ?_, ?_⟩
  · rw [indexUninit_of_legal hi, State.finish_faults_clean]
  · intro x hx y hy h hh b hb
    rw [State.finish_comp]
    exact read_encBytes _ _ _ hx hy hh hb

theorem hueOf_eq (i : Byte) : hueOf i = Fin.ofNat 8 (i.toNat % 8) := by
  simp [hueOf, Fin.ext_iff]

/-- Settles O30. -/
theorem encIWritesSamples : Obligations.EncIWritesSamples := by
  unfold Obligations.EncIWritesSamples
  intro s hd hidx
  obtain ⟨t, ht, hdone, hfaults, hread⟩ := runEnc_legal (encIAt s.cfg s.idx) hd hidx
  refine ⟨t, ht, hdone, hfaults, fun x hx y hy h hh i hi => hread x hx y hy h hh _ ?_⟩
  rw [encIAt, cellAt, hi, Option.map_some, sampleI, sampleIRaw, ← hueOf_eq]
  simp [brightOf, phasePos]

/-! ### The float sample's neighbours -/

/-- The second half-dot of a pixel stands one phase position after the first (41_encoder.md R121). -/
theorem phasePos_one (x : Nat) : phasePos x 1 = phasePos x 0 + 1 := by
  simp only [phasePos, Fin.ext_iff, Fin.val_add, Fin.val_ofNat]
  omega

theorem nextHue_of_right {idx : Memory} {w x y : Nat} {right : Byte}
    (h : if x + 1 < w then idx.read (cellAt w (x + 1) y) = some right else right = 0) :
    nextHue idx w x y = some (hueOf right) := by
  unfold nextHue
  split_ifs at h ⊢
  · rw [hueAt, h, Option.map_some]
  · rw [h]
    rfl

theorem prevHue_of_left {idx : Memory} {w x y : Nat} {left : Byte}
    (h : if 0 < x then idx.read (cellAt w (x - 1) y) = some left else left = 0) :
    prevHue idx w x y = some (hueOf left) := by
  unfold prevHue
  split_ifs at h ⊢
  · rw [hueAt, h, Option.map_some]
  · rw [h]
    rfl

/-- The previous value under each reading of `EDGE_PREV`, from the half-dot's neighbour on the line and its own hue's
cell before (41_encoder.md R126). -/
def previousBy (e : EdgePrev) (neighbour sameHue : Fl) : Option Fl :=
  match e with
  | .neighbour => some neighbour
  | .sameHue => some sameHue
  | .none => none

theorem prevValue_first {c : Config} {idx : Memory} {w x y : Nat} {left : Fin 8} (hue : Fin 8)
    (h : prevHue idx w x y = some left) :
    prevValue c idx w x y 0 hue = some (previousBy c.edgePrev (waveAt c left (phasePos x 0 - 1))
      (waveAt c hue (phasePos x 0 - 1))) := by
  unfold prevValue
  cases c.edgePrev with
  | neighbour =>
    dsimp only
    rw [if_pos rfl, h]
    rfl
  | sameHue | none => rfl

theorem prevValue_second (c : Config) (idx : Memory) (w x y : Nat) (hue : Fin 8) :
    prevValue c idx w x y 1 hue =
      some (previousBy c.edgePrev (waveAt c hue (phasePos x 0)) (waveAt c hue (phasePos x 0))) := by
  unfold prevValue
  rw [phasePos_one, add_sub_cancel_right]
  cases c.edgePrev <;> rfl

theorem encFAt_eq {c : Config} {idx : Memory} {w x y h : Nat} {i : Byte} {next : Fl} {prev : Option Fl}
    (hi : idx.read (cellAt w x y) = some i) (hnext : nextValue c idx w x y h (hueOf i) = some next)
    (hprev : prevValue c idx w x y h (hueOf i) = some prev) :
    encFAt c idx w x y h = sampleF c (hueOf i) (brightOf i) (phasePos x h)
      (markedBy c (hueOf i) (phasePos x h) prev next) := by
  simp [encFAt, hi, hnext, hprev]

/-- The first half-dot: the next cell is its own hue's, the previous neighbour the left pixel's. -/
theorem encFAt_first {c : Config} {idx : Memory} {w x y : Nat} {i : Byte} {left : Fin 8}
    (hi : idx.read (cellAt w x y) = some i) (hleft : prevHue idx w x y = some left) :
    encFAt c idx w x y 0 = sampleF c (hueOf i) (brightOf i) (phasePos x 0) (markedBy c (hueOf i) (phasePos x 0)
      (previousBy c.edgePrev (waveAt c left (phasePos x 0 - 1)) (waveAt c (hueOf i) (phasePos x 0 - 1)))
      (waveAt c (hueOf i) (phasePos x 0 + 1))) :=
  encFAt_eq hi rfl (prevValue_first _ hleft)

/-- The second half-dot: the next cell is the right pixel's, the previous one its own pixel's first. -/
theorem encFAt_second {c : Config} {idx : Memory} {w x y : Nat} {i : Byte} {right : Fin 8}
    (hi : idx.read (cellAt w x y) = some i) (hright : nextHue idx w x y = some right) :
    encFAt c idx w x y 1 = sampleF c (hueOf i) (brightOf i) (phasePos x 0 + 1)
      (markedBy c (hueOf i) (phasePos x 0 + 1)
        (previousBy c.edgePrev (waveAt c (hueOf i) (phasePos x 0)) (waveAt c (hueOf i) (phasePos x 0)))
        (waveAt c right (phasePos x 0 + 2))) := by
  have hnext : nextValue c idx w x y 1 (hueOf i) = some (waveAt c right (phasePos x 0 + 2)) := by
    rw [nextValue, if_neg one_ne_zero, hright, phasePos_one, add_assoc]
    rfl
  rw [encFAt_eq hi hnext (prevValue_second c idx w x y _), phasePos_one]

/-! ### The float sample -/

/-- A cell after the attenuations, before the intensity gain (41_encoder.md R128). -/
def attenuated (f : FloatFmt) (lit : Literals) (cell : Word) (marked : Bool) : Fl :=
  fmul f (if marked then fmul f (ofBits f cell) (ofBits f lit.edgeAtten) else ofBits f cell) (ofBits f lit.lumaAtten)

theorem attenuated_false (f : FloatFmt) (lit : Literals) (cell : Word) :
    attenuated f lit cell false = fmul f (ofBits f cell) (ofBits f lit.lumaAtten) := rfl

theorem attenuated_true (f : FloatFmt) (lit : Literals) (cell : Word) : attenuated f lit cell true =
    fmul f (fmul f (ofBits f cell) (ofBits f lit.edgeAtten)) (ofBits f lit.lumaAtten) := rfl

/-- The float sample, its steps in the order of 41_encoder.md R128. -/
theorem sampleF_eq (c : Config) (hue : Fin 8) (bright : Bool) (p : Fin 8) (marked : Bool) :
    sampleF c hue bright p marked = clampByte c.floatFmt
      (if bright then fadd c.floatFmt (attenuated c.floatFmt c.lit (waveFCell c hue p) marked)
          (ofBits c.floatFmt c.lit.intensityF)
        else attenuated c.floatFmt c.lit (waveFCell c hue p) marked) := rfl

theorem sampleF_brightOf (c : Config) (hue : Fin 8) (i : Byte) (p : Fin 8) (marked : Bool) :
    sampleF c hue (brightOf i) p marked = clampByte c.floatFmt
      (if 7 < i.toNat then fadd c.floatFmt (attenuated c.floatFmt c.lit (waveFCell c hue p) marked)
          (ofBits c.floatFmt c.lit.intensityF)
        else attenuated c.floatFmt c.lit (waveFCell c hue p) marked) := by
  simp only [sampleF_eq, brightOf, decide_eq_true_eq]

/-- Settles O31: each half-dot is `encFAt` of its neighbours, read off the written indices. -/
theorem encFWritesSamples : Obligations.EncFWritesSamples := by
  unfold Obligations.EncFWritesSamples
  intro s hd hidx
  obtain ⟨t, ht, hdone, hfaults, hread⟩ := runEnc_legal (encFAt s.cfg s.idx) hd hidx
  refine ⟨t, ht, hdone, hfaults, fun x hx y hy i left right hi hright hleft => ⟨fun b hb => ?_, fun b hb => ?_⟩⟩
  · refine hread x hx y hy 0 (by decide) b ?_
    rw [encFAt_first hi (prevHue_of_left hleft), sampleF_brightOf]
    exact hb
  · refine hread x hx y hy 1 (by decide) b ?_
    rw [encFAt_second hi (nextHue_of_right hright), sampleF_brightOf]
    exact hb

/-! ### The edge condition -/

theorem isOne_iff {f : FloatFmt} {v : Fl} : isOne f v = true ↔ v = .fin false (oneMag f) := beq_iff_eq

theorem isZero_iff {v : Fl} : isZero v = true ↔ ∃ s, v = .fin s 0 := by
  cases v <;> simp [isZero]

theorem previousIsZero_iff {prev : Option Fl} : (prev.map isZero).getD false = true ↔ ∃ s, prev = some (.fin s 0) := by
  cases prev <;> simp [isZero_iff]

/-- Settles O32: the three comparisons, then the grouping as a Boolean identity. -/
theorem markedByEdgeCondition : Obligations.MarkedByEdgeCondition := by
  unfold Obligations.MarkedByEdgeCondition
  intro c hue p prev next
  rw [← isOne_iff, ← previousIsZero_iff, ← isZero_iff]
  unfold markedBy edgeMarked
  cases c.edgeGroup with
  | flagged => simp only [← Bool.and_or_distrib_left, Bool.and_eq_true, Bool.or_eq_true, and_assoc]
  | fallingOnly =>
    simp only [Bool.and_assoc, ← Bool.and_or_distrib_left, Bool.and_eq_true, Bool.or_eq_true]

/-! ### The order of the float sample's arithmetic -/

/-- Two floats without a sign, the first at most the second. -/
def UnsignedLe (u v : Fl) : Prop :=
  (∃ m n, m ≤ n ∧ u = .fin false m ∧ v = .fin false n) ∨ (∃ m, u = .fin false m ∧ v = .inf false) ∨
    (u = .inf false ∧ v = .inf false)

theorem UnsignedLe.fin {m n : Nat} (h : m ≤ n) : UnsignedLe (.fin false m) (.fin false n) := .inl ⟨m, n, h, rfl, rfl⟩

theorem UnsignedLe.finInf (m : Nat) : UnsignedLe (.fin false m) (.inf false) := .inr (.inl ⟨m, rfl, rfl⟩)

theorem UnsignedLe.infInf : UnsignedLe (.inf false) (.inf false) := .inr (.inr ⟨rfl, rfl⟩)

theorem oneMag_pos (f : FloatFmt) : 0 < oneMag f := Nat.two_pow_pos _

theorem overflowMag_pos (f : FloatFmt) : 0 < overflowMag f := Nat.two_pow_pos _

theorem le_overflowMag {f : FloatFmt} {e : Nat} (h : e ≤ fmtBias f + 1 + unitLog f) : 2 ^ e ≤ overflowMag f :=
  Nat.pow_le_pow_right two_pos h

/-- The two forms of an unsigned rounded float. -/
theorem roundFl_eq_or (f : FloatFmt) (num den : Nat) :
    roundFl f false num den = .inf false ∨ roundFl f false num den = .fin false (roundMag f num den) := by
  unfold roundFl
  dsimp only
  split
  · exact .inl rfl
  · exact .inr rfl

theorem roundFl_of_lt {f : FloatFmt} {num den : Nat} (h : roundMag f num den < overflowMag f) :
    roundFl f false num den = .fin false (roundMag f num den) := if_neg (not_le.2 h)

theorem roundFl_roundMag (f : FloatFmt) (num den : Nat) :
    roundFl f false (roundMag f num den) 1 = roundFl f false num den := by
  rw [roundFl, roundFl, roundMag_roundMag]

theorem roundFl_le_inf (f : FloatFmt) (num den : Nat) : UnsignedLe (roundFl f false num den) (.inf false) := by
  rcases roundFl_eq_or f num den with h | h <;> rw [h]
  · exact .infInf
  · exact .finInf _

/-- Rounding keeps the order of the quotients (00_scope.md R8). -/
theorem roundFl_mono (f : FloatFmt) {a b c d : Nat} (hb : 0 < b) (hd : 0 < d) (h : a * d ≤ c * b) :
    UnsignedLe (roundFl f false a b) (roundFl f false c d) := by
  have hmag := roundMag_mono f hb hd h
  by_cases hover : overflowMag f ≤ roundMag f c d
  · rw [show roundFl f false c d = .inf false from if_pos hover]
    exact roundFl_le_inf f a b
  · rw [roundFl_of_lt (not_le.1 hover), roundFl_of_lt (hmag.trans_lt (not_le.1 hover))]
    exact .fin hmag

theorem fmul_inf (f : FloatFmt) {k : Nat} (hk : k ≠ 0) : fmul f (.inf false) (.fin false k) = .inf false := if_neg hk

theorem fmul_unsigned (f : FloatFmt) (m n : Nat) :
    fmul f (.fin false m) (.fin false n) = roundFl f false (m * n) (oneMag f) := rfl

theorem fmul_mono (f : FloatFmt) {u v : Fl} (h : UnsignedLe u v) {k : Nat} (hk : k ≠ 0) :
    UnsignedLe (fmul f u (.fin false k)) (fmul f v (.fin false k)) := by
  rcases h with ⟨m, n, hmn, rfl, rfl⟩ | ⟨m, rfl, rfl⟩ | ⟨rfl, rfl⟩
  · exact roundFl_mono f (oneMag_pos f) (oneMag_pos f) (by gcongr)
  · rw [fmul_inf f hk]
    exact roundFl_le_inf f _ _
  · rw [fmul_inf f hk]
    exact .infInf

theorem fadd_unsigned (f : FloatFmt) (m n : Nat) :
    fadd f (.fin false m) (.fin false n) = roundFl f false (m + n) 1 := by
  rcases Nat.eq_zero_or_pos (m + n) with h | h
  · obtain ⟨rfl, rfl⟩ := Nat.add_eq_zero_iff.1 h
    have hzero : roundMag f (0 + 0) 1 = 0 := by simpa using roundMag_exact f (k := 0) (e := 0) (Nat.zero_le _)
    rw [roundFl_of_lt (by rw [hzero]; exact overflowMag_pos f), hzero]
    rfl
  · have hz : signed false m + signed false n = ((m + n : Nat) : Int) := rfl
    simp only [fadd, hz]
    rw [if_neg (by omega), decide_eq_false (by omega), Int.natAbs_natCast]

/-- Adding an unsigned float to a rounded one does not lower it: the rounded one is where the sum's rounding starts. -/
theorem roundFl_le_fadd (f : FloatFmt) (num den g : Nat) :
    UnsignedLe (roundFl f false num den) (fadd f (roundFl f false num den) (.fin false g)) := by
  rcases roundFl_eq_or f num den with h | h
  · rw [h]
    exact .infInf
  · have hle : UnsignedLe (roundFl f false (roundMag f num den) 1) (roundFl f false (roundMag f num den + g) 1) :=
      roundFl_mono f one_pos one_pos (by omega)
    rwa [roundFl_roundMag, ← fadd_unsigned, ← h] at hle

theorem fmul_le_fadd (f : FloatFmt) {u v : Fl} (h : UnsignedLe u v) {k : Nat} (hk : k ≠ 0) (g : Nat) :
    UnsignedLe (fmul f u (.fin false k)) (fadd f (fmul f u (.fin false k)) (.fin false g)) := by
  rcases h with ⟨m, -, -, rfl, -⟩ | ⟨m, rfl, -⟩ | ⟨rfl, -⟩
  · exact roundFl_le_fadd f _ _ g
  · exact roundFl_le_fadd f _ _ g
  · rw [fmul_inf f hk]
    exact .infInf

/-- The byte of an unsigned float, which it always has, keeps the order (10_state.md R39). -/
theorem truncByte_mono (f : FloatFmt) {u v : Fl} (h : UnsignedLe u v) :
    ∃ a b, truncByte f u = some a ∧ truncByte f v = some b ∧ a.toNat ≤ b.toNat := by
  rcases h with ⟨m, n, hmn, rfl, rfl⟩ | ⟨m, rfl, rfl⟩ | ⟨rfl, rfl⟩
  · refine ⟨_, _, rfl, rfl, ?_⟩
    simp only [Bool.false_eq_true, if_false, toNat_ofNat_min]
    exact min_le_min_right 255 (Nat.div_le_div_right hmn)
  · exact ⟨_, _, rfl, rfl, Nat.le_of_lt_succ (BitVec.isLt _)⟩
  · exact ⟨_, _, rfl, rfl, le_rfl⟩

/-! ### Computing in binary32 -/

theorem oneMag_binary32 : oneMag binary32 = 2 ^ 149 := rfl

/-- A rounded magnitude below `2^256` units is far from the overflow at `2^277`. -/
theorem roundFl_binary32 {num den k : Nat} (hk : roundMag binary32 num den = k) (hfin : k < 2 ^ 256) :
    roundFl binary32 false num den = .fin false k := by
  have hover : 2 ^ 256 ≤ overflowMag binary32 := le_overflowMag (by decide)
  rw [roundFl_of_lt (hk ▸ hfin.trans_le hover), hk]

theorem ofNatFl_binary32_255 : ofNatFl binary32 255 = .fin false (255 * 2 ^ 149) :=
  roundFl_binary32 (by decide) (by decide)

theorem fmul_binary32 {m n k : Nat} (hk : roundMag binary32 (m * n) (2 ^ 149) = k) (hfin : k < 2 ^ 256) :
    fmul binary32 (.fin false m) (.fin false n) = .fin false k := by
  rw [fmul_unsigned, oneMag_binary32, roundFl_binary32 hk hfin]

theorem fadd_binary32 {m n k : Nat} (hk : roundMag binary32 (m + n) 1 = k) (hfin : k < 2 ^ 256) :
    fadd binary32 (.fin false m) (.fin false n) = .fin false k := by
  rw [fadd_unsigned, roundFl_binary32 hk hfin]

theorem clampByte_binary32 {m : Nat} {b : Byte} (hfin : roundMag binary32 (m * (255 * 2 ^ 149)) (2 ^ 149) < 2 ^ 256)
    (hb : BitVec.ofNat 8 (min (roundMag binary32 (m * (255 * 2 ^ 149)) (2 ^ 149) / 2 ^ 149) 255) = b) :
    clampByte binary32 (.fin false m) = some b := by
  rw [clampByte, ofNatFl_binary32_255, fmul_binary32 rfl hfin, truncByte, oneMag_binary32,
    if_neg Bool.false_ne_true, hb]

theorem ofBits_one : ofBits binary32 0x3F800000 = .fin false (2 ^ 149) := by decide

theorem ofBits_edgeAtten : ofBits binary32 sourceLiterals.edgeAtten = .fin false (0xCCCCCD * 2 ^ 125) := by decide

theorem ofBits_lumaAtten : ofBits binary32 sourceLiterals.lumaAtten = .fin false (0xC00000 * 2 ^ 125) := by decide

theorem ofBits_intensityF : ofBits binary32 sourceLiterals.intensityF = .fin false (2 ^ 147) := by decide

/-! ### The extreme cells -/

/-- A full cell becomes 0.75 (41_encoder.md R132). -/
theorem attenuated_one {cell : Word} (h : cell = 0x3F800000) :
    attenuated binary32 sourceLiterals cell false = .fin false (0xC00000 * 2 ^ 125) := by
  rw [attenuated_false, h, ofBits_one, ofBits_lumaAtten]
  exact fmul_binary32 (by decide) (by decide)

/-- A marked full cell becomes 0.6000000238 (41_encoder.md R132). -/
theorem attenuated_one_marked {cell : Word} (h : cell = 0x3F800000) :
    attenuated binary32 sourceLiterals cell true = .fin false (0x99999A * 2 ^ 125) := by
  rw [attenuated_true, h, ofBits_one, ofBits_edgeAtten, ofBits_lumaAtten,
    fmul_binary32 (k := 0xCCCCCD * 2 ^ 125) (by decide) (by decide)]
  exact fmul_binary32 (by decide) (by decide)

theorem attenuated_zero {cell : Word} (h : cell = 0) (m : Bool) :
    attenuated binary32 sourceLiterals cell m = .fin false 0 := by
  have hzero : ofBits binary32 0 = .fin false 0 := by decide
  have hmul {n : Nat} (hn : roundMag binary32 (0 * n) (2 ^ 149) = 0) :
      fmul binary32 (.fin false 0) (.fin false n) = .fin false 0 := fmul_binary32 hn (by decide)
  cases m with
  | false => rw [attenuated_false, h, hzero, ofBits_lumaAtten, hmul (by decide)]
  | true => rw [attenuated_true, h, hzero, ofBits_edgeAtten, ofBits_lumaAtten, hmul (by decide), hmul (by decide)]

theorem sampleF_plain {c : Config} (hfmt : c.floatFmt = binary32) (hlit : c.lit = sourceLiterals) {hue p : Fin 8}
    {m : Bool} {k : Nat} (hatt : attenuated binary32 sourceLiterals (waveFCell c hue p) m = .fin false k) :
    sampleF c hue false p m = clampByte binary32 (.fin false k) := by
  rw [sampleF_eq, hfmt, hlit, hatt, if_neg Bool.false_ne_true]

theorem sampleF_bright {c : Config} (hfmt : c.floatFmt = binary32) (hlit : c.lit = sourceLiterals) {hue p : Fin 8}
    {m : Bool} {k : Nat} (hatt : attenuated binary32 sourceLiterals (waveFCell c hue p) m = .fin false k) {s : Nat}
    (hsum : roundMag binary32 (k + 2 ^ 147) 1 = s) (hfin : s < 2 ^ 256) :
    sampleF c hue true p m = clampByte binary32 (.fin false s) := by
  rw [sampleF_eq, hfmt, hlit, hatt, if_pos rfl, ofBits_intensityF, fadd_binary32 hsum hfin]

/-- Settles O33, from the attenuated value of each cell. -/
theorem floatSampleOfExtremeCells : Obligations.FloatSampleOfExtremeCells := by
  unfold Obligations.FloatSampleOfExtremeCells
  intro c hue p hfmt hlit
  refine ⟨fun hcell => ⟨?_, ?_, ?_, ?_⟩, fun hcell m => ⟨?_, ?_⟩⟩
  · rw [sampleF_plain hfmt hlit (attenuated_one hcell)]
    exact clampByte_binary32 (by decide) (by decide)
  · rw [sampleF_bright hfmt hlit (attenuated_one hcell) (s := 2 ^ 149) (by decide) (by decide)]
    exact clampByte_binary32 (by decide) (by decide)
  · rw [sampleF_plain hfmt hlit (attenuated_one_marked hcell)]
    exact clampByte_binary32 (by decide) (by decide)
  · rw [sampleF_bright hfmt hlit (attenuated_one_marked hcell) (s := 0xD9999A * 2 ^ 125) (by decide) (by decide)]
    exact clampByte_binary32 (by decide) (by decide)
  · rw [sampleF_plain hfmt hlit (attenuated_zero hcell m)]
    exact clampByte_binary32 (by decide) (by decide)
  · rw [sampleF_bright hfmt hlit (attenuated_zero hcell m) (s := 2 ^ 147) (by decide) (by decide)]
    exact clampByte_binary32 (by decide) (by decide)

/-! ### The intensity bit -/

theorem clampByte_mono {u v : Fl} (h : UnsignedLe u v) :
    ∃ a b, clampByte binary32 u = some a ∧ clampByte binary32 v = some b ∧ a.toNat ≤ b.toNat := by
  unfold clampByte
  rw [ofNatFl_binary32_255]
  exact truncByte_mono _ (fmul_mono _ h (by decide))

/-- A pattern below that of infinity is an unsigned finite float. -/
theorem ofBits_binary32_of_lt {w : Word} (h : w.toNat < 0x7F800000) :
    ∃ m, ofBits binary32 w = .fin false m := by
  have hsign : w.toNat / 2 ^ (23 + 8) % 2 = 0 := by omega
  have hexp : ¬ w.toNat / 2 ^ 23 % 2 ^ 8 = 2 ^ 8 - 1 := by omega
  simp only [ofBits, binary32, hsign, if_neg hexp]
  split
  · exact ⟨_, rfl⟩
  · exact ⟨_, rfl⟩

/-- The attenuated cell is unsigned, and the gain, added to a rounded product, does not lower it
(41_encoder.md R133). -/
theorem attenuated_le_fadd_gain {cell : Word} (hcell : cell.toNat < 0x7F800000) (m : Bool) :
    UnsignedLe (attenuated binary32 sourceLiterals cell m)
      (fadd binary32 (attenuated binary32 sourceLiterals cell m) (ofBits binary32 sourceLiterals.intensityF)) := by
  obtain ⟨v, hv⟩ := ofBits_binary32_of_lt hcell
  have hself : UnsignedLe (.fin false v) (.fin false v) := .fin le_rfl
  cases m with
  | false =>
    rw [attenuated_false, hv, ofBits_lumaAtten, ofBits_intensityF]
    exact fmul_le_fadd binary32 hself (by decide) _
  | true =>
    rw [attenuated_true, hv, ofBits_edgeAtten, ofBits_lumaAtten, ofBits_intensityF]
    exact fmul_le_fadd binary32 (fmul_mono binary32 hself (by decide)) (by decide) _

theorem sampleIRaw_le_bright (c : Config) (hue p : Fin 8) : sampleIRaw c hue false p ≤ sampleIRaw c hue true p :=
  Nat.le_add_right _ _

/-- Settles O34: on both paths the gain is added to the same value and the final clamp is monotone. -/
theorem intensityNeverLowersSample : Obligations.IntensityNeverLowersSample := by
  unfold Obligations.IntensityNeverLowersSample
  refine ⟨fun c hue p => ?_, fun c hue p m hfmt hlit hcell => ?_⟩
  · rw [toNat_sampleI, toNat_sampleI]
    exact min_le_min_right 255 (sampleIRaw_le_bright c hue p)
  · simp only [sampleF_eq, hfmt, hlit]
    exact clampByte_mono (attenuated_le_fadd_gain (by omega) m)

end Sys2Proof.Machine

/-! SUPPORT. The NTSC decoder (42_decoder.md): its sampler, the raw triples as sums, what the six DEC commands leave in
OUT, the two uniform rasters, the FIR sets and the colour adjustment. -/

namespace Sys2Proof.Machine

/-! ### The accurate commands under a sub-pixel shift -/

theorem runDec_ne_refused (s : State) (me : Method) (mo : Mode) (r : Refusal) : runDec s me mo ≠ .refused r := by
  rcases runDec_cases s me mo with ⟨-, h⟩ | ⟨-, h⟩ <;> simp [h]

theorem runEnc_ne_refused (s : State) (at_ : Nat → Nat → Nat → Nat → Option Byte) (r : Refusal) :
    runEnc s at_ ≠ .refused r := by
  rcases runEnc_cases s at_ with ⟨-, h⟩ | ⟨-, -, h⟩ | ⟨-, -, h⟩ <;> simp [h]

theorem execQuant_ne_refused (s : State) (r : Refusal) : execQuant s ≠ .refused r := by
  rcases execQuant_cases s with ⟨-, h⟩ | ⟨-, h⟩ <;> simp [h]

/-- Only an accurate DEC command is refused for the shift. -/
theorem accurate_of_refused {s : State} {i : Instr} (h : exec i s = .refused .subpixelShift) :
    i = .decAccRgb ∨ i = .decAccLuma ∨ i = .decAccChroma := by
  cases i with
  | nop | srst => cases h
  | quant => exact absurd h (execQuant_ne_refused _ _)
  | encI | encF => exact absurd h (runEnc_ne_refused _ _ _)
  | decFastRgb | decFastLuma | decFastChroma => exact absurd h (runDec_ne_refused _ _ _ _)
  | decAccRgb => exact .inl rfl
  | decAccLuma => exact .inr (.inl rfl)
  | decAccChroma => exact .inr (.inr rfl)

/-- Settles O23. -/
theorem subpixelShiftRefusesAccurateOnly : Obligations.SubpixelShiftRefusesAccurateOnly := by
  unfold Obligations.SubpixelShiftRefusesAccurateOnly
  refine fun s i hshift => ⟨accurate_of_refused, ?_⟩
  rintro (rfl | rfl | rfl) <;> exact runAcc_of_nonzero hshift _

/-! ### The sampler -/

theorem clampTo_natCast {n r : Nat} (h : r < n) : clampTo n r = r := by
  unfold clampTo
  omega

/-- A sample of a row of the raster reads that row (42_decoder.md R164). -/
theorem sampleAt_row (f : FloatFmt) (comp : Memory) (w : Nat) {h y : Nat} (hy : y < h) (c : Int) :
    sampleAt f comp w h c y = (comp.read (y * (2 * w) + clampTo (2 * w) c)).map (sampleFl f) := by
  rw [sampleAt, sampleByte, clampTo_natCast hy, cellAt]

/-- Settles O37: both columns of each pair clamp to one. -/
theorem borderSamplesClamp : Obligations.BorderSamplesClamp := by
  unfold Obligations.BorderSamplesClamp
  intro f comp w h r
  have hleft : clampTo (2 * w) (-1) = clampTo (2 * w) 0 := by simp [clampTo]
  have hright : clampTo (2 * w) (2 * (w : Int)) = clampTo (2 * w) (2 * (w : Int) - 1) := by
    unfold clampTo
    omega
  simp only [sampleAt, sampleByte, hleft, hright, and_self]

/-! ### Folds whose every step has a value -/

/-- A chain of steps that each have the value `g` gives is the fold of `g`. -/
theorem foldlM_eq_some_foldl {α β : Type} {f : β → α → Option β} {g : β → α → β} {l : List α}
    (h : ∀ b, ∀ a ∈ l, f b a = some (g b a)) (b : β) : l.foldlM f b = some (l.foldl g b) := by
  induction l generalizing b with
  | nil => rfl
  | cons a l ih =>
    obtain ⟨ha, hl⟩ : (∀ b, f b a = some (g b a)) ∧ ∀ b, ∀ a' ∈ l, f b a' = some (g b a') :=
      ⟨fun b => h b a List.mem_cons_self, fun b a' ha' => h b a' (List.mem_cons_of_mem a ha')⟩
    rw [List.foldlM_cons, ha, List.foldl_cons]
    exact ih hl (g b a)

/-- Steps that agree on a list's elements make the same chain. -/
theorem foldlM_congr {α β : Type} {f g : β → α → Option β} {l : List α} (h : ∀ b, ∀ a ∈ l, f b a = g b a) (b : β) :
    l.foldlM f b = l.foldlM g b := by
  induction l generalizing b with
  | nil => rfl
  | cons a l ih =>
    rw [List.foldlM_cons, List.foldlM_cons, h b a List.mem_cons_self]
    exact congrArg _ (funext fun b' => ih (fun b a' ha' => h b a' (List.mem_cons_of_mem a ha')) b')

/-- A list with its indices, as a map over them. -/
theorem zipIdx_eq_map_range {α : Type} (l : List α) (d : α) :
    l.zipIdx = (List.range l.length).map fun k => (l.getD k d, k) :=
  List.ext_getElem (by simp) fun k hk _ => by simp at hk; simp [hk]

/-! ### The raw triples -/

/-- `v₀ + v₁ + …` from 0.0, in the list's order. -/
def floatSum {α : Type} (f : FloatFmt) (l : List α) (v : α → Fl) : Fl :=
  l.foldl (fun s a => fadd f s (v a)) (.fin false 0)

/-- Accumulating the values `v` of a list's elements at the phase indices `m`. -/
def phaseSums {α : Type} (c : Config) (l : List α) (v : α → Fl) (m : α → Fin 8) : Vec3 Fl :=
  ⟨floatSum c.floatFmt l v,
    floatSum c.floatFmt l fun a => fmul c.floatFmt (v a) (ofBits c.floatFmt c.phase[m a].1),
    floatSum c.floatFmt l fun a => fmul c.floatFmt (v a) (ofBits c.floatFmt c.phase[m a].2)⟩

theorem phaseSums_x {α : Type} (c : Config) (l : List α) (v : α → Fl) (m : α → Fin 8) :
    (phaseSums c l v m).x = floatSum c.floatFmt l v := rfl

theorem foldl_accumulate {α : Type} (c : Config) (l : List α) (v : α → Fl) (m : α → Fin 8) :
    l.foldl (fun acc a => accumulate c acc (v a) (m a)) zeroYiq = phaseSums c l v m := by
  induction l using List.reverseRecOn with
  | nil => rfl
  | append_singleton l a ih =>
    rw [List.foldl_append, ih]
    simp [phaseSums, floatSum, accumulate]

/-- The fast window's three sums, where its eight samples have values (42_decoder.md R167). -/
theorem foldlM_fastTap_of_samples {c : Config} {comp : Memory} {w h x y : Nat} {v : Nat → Fl}
    (hv : ∀ j : Nat, j < 8 → sampleAt c.floatFmt comp w h (2 * (x : Int) + j + c.fastOffset) y = some (v j)) :
    (List.range 8).foldlM (fastTap c comp w h x y) zeroYiq = some (phaseSums c (List.range 8) v
      fun j => phaseIndex c.phaseRef (2 * (x : Int) + j + c.fastOffset) x) := by
  rw [← foldl_accumulate]
  refine foldlM_eq_some_foldl (fun acc j hj => ?_) zeroYiq
  rw [fastTap, hv j (List.mem_range.1 hj), Option.map_some]

/-- Settles O40. -/
theorem fastTripleIsBoxSum : Obligations.FastTripleIsBoxSum := by
  unfold Obligations.FastTripleIsBoxSum
  intro c comp w h x y v hn hv f m sum
  rw [fastYiq, hn, foldlM_fastTap_of_samples hv]
  rfl

/-- The taps by their number. -/
theorem accYiq_eq (c : Config) (comp : Memory) (w h x y : Nat) : accYiq c comp w h x y =
    (List.range (firA c).length).foldlM
      (fun acc k => accTap c comp w h x y acc ((firA c).getD k (.fin false 0), k)) zeroYiq := by
  rw [accYiq, zipIdx_eq_map_range _ (.fin false 0), List.foldlM_map]

/-- The accurate triple of taps whose samples have values (42_decoder.md R168). -/
theorem accYiq_of_samples {c : Config} {comp : Memory} {w h x y : Nat} {v : Nat → Fl}
    (hv : ∀ k : Nat, k < (firA c).length →
      sampleAt c.floatFmt comp w h (2 * (x : Int) + c.accOffset + c.accStride * k) y = some (v k)) :
    accYiq c comp w h x y = some (phaseSums c (List.range (firA c).length)
      (fun k => fmul c.floatFmt (v k) ((firA c).getD k (.fin false 0)))
      fun k => phaseIndex c.phaseRef (2 * (x : Int) + c.accOffset + c.accStride * k) x) := by
  rw [accYiq_eq, ← foldl_accumulate]
  refine foldlM_eq_some_foldl (fun acc k hk => ?_) zeroYiq
  rw [accTap, hv k (List.mem_range.1 hk), Option.map_some]

/-- Settles O41. -/
theorem accurateTripleIsFirSum : Obligations.AccurateTripleIsFirSum := by
  unfold Obligations.AccurateTripleIsFirSum
  intro c comp w h x y v hv
  exact accYiq_of_samples hv

/-! ### What a raw triple reads -/

/-- Two contents of COMP that agree on the byte a sample of row `y` reads give the same sample. -/
theorem sampleAt_congr (f : FloatFmt) {m n : Memory} {w h y col : Nat} {c : Int} (hy : y < h)
    (hcol : clampTo (2 * w) c = col) (hsame : m.read (y * (2 * w) + col) = n.read (y * (2 * w) + col)) :
    sampleAt f m w h c y = sampleAt f n w h c y := by
  rw [sampleAt_row f m w hy, sampleAt_row f n w hy, hcol, hsame]

/-- A column `d` to the left of `a`, clamped to the row: natural subtraction is the clamp at 0. -/
theorem clampTo_sub {n a d : Nat} {c : Int} (hc : c = a - d) : clampTo n c = min (a - d) (n - 1) := by
  unfold clampTo
  omega

/-- Settles O47: each tap by the one byte it reads. -/
theorem tripleDependsOnItsWindow : Obligations.TripleDependsOnItsWindow := by
  unfold Obligations.TripleDependsOnItsWindow
  intro c m n w h x y hy
  refine ⟨fun hoff hn hsame => ?_, fun hoff hstride hlen hsame => ?_⟩
  · have hfold : (List.range 8).foldlM (fastTap c m w h x y) zeroYiq =
        (List.range 8).foldlM (fastTap c n w h x y) zeroYiq := by
      refine foldlM_congr (fun acc j hj => ?_) zeroYiq
      simp only [fastTap]
      rw [sampleAt_congr _ hy (clampTo_sub (by omega)) (hsame j (List.mem_range.1 hj))]
    rw [fastYiq, fastYiq, hn, hfold]
  · rw [accYiq_eq, accYiq_eq, hlen]
    refine foldlM_congr (fun acc k hk => ?_) zeroYiq
    simp only [accTap]
    rw [sampleAt_congr _ hy (clampTo_sub (by rw [hstride]; omega)) (hsame k (List.mem_range.1 hk))]

/-! ### What a DEC command leaves in OUT -/

/-- Byte `i` of pixel `k` of OUT after a DEC command on legal dimensions. -/
theorem read_out_of_exec_decOf {s t : State} {me : Method} {mo : Mode} (hd : s.DimsLegal)
    (h : exec (decOf me mo) s = .next t) {k i : Nat} (hk : k < s.latchedW * s.latchedH) (hi : i < 4) :
    t.out.read (4 * k + i) = (pixelBytes s.draws k (pixelOut s.cfg s.latch me mo s.comp s.latchedW s.latchedH
      (colOf s.latchedW k) (rowOf s.latchedW k)))[i]? := by
  rw [exec_decOf_ok mo (accSubpixel_of_exec_decOf h) hd] at h
  cases h
  rw [← State.buf_out, finish_read _ _ _ (by rw [length_decBytes]; omega), getElem?_decBytes _ _ _ _ _ _ _ _ hk hi]

/-- A DEC command on a written raster: the frame of 42_decoder.md R176, a raw triple at every pixel, and the pixel's
four bytes at its place in OUT. -/
theorem decOf_written {s : State} {me : Method} (mo : Mode) (hd : s.DimsLegal) (hw : s.CompWritten)
    (hacc : me = .accurate → s.cfg.accSubpixel = 0) :
    ∃ t, exec (decOf me mo) s = .next t ∧ s.RasterDone t .out (4 * s.latchedW * s.latchedH) ∧ t.faults = s.faults ∧
      ∀ x < s.latchedW, ∀ y < s.latchedH, ∃ yiq, rawYiq s.cfg me s.comp s.latchedW s.latchedH x y = some yiq ∧
        ∀ i < 4, t.out.read (4 * (y * s.latchedW + x) + i) =
          (pixelBytes s.draws (y * s.latchedW + x) (modeOut s.cfg s.latch mo yiq))[i]? := by
  have hlen : (decBytes s.cfg s.latch me mo s.comp s.draws s.latchedW s.latchedH).length =
      4 * s.latchedW * s.latchedH := by rw [length_decBytes, Nat.mul_assoc]
  refine ⟨_, exec_decOf_ok mo hacc hd, finish_rasterDone s .out _ hlen, ?_, fun x hx y hy => ?_⟩
  · rw [decUninit_of_written me hw, State.finish_faults_clean]
  · have hraw := rawYiq_isSome s.cfg me (Nat.zero_lt_of_lt hx) (Nat.zero_lt_of_lt hy) hw x y
    obtain ⟨yiq, hyiq⟩ := Option.isSome_iff_exists.1 hraw
    refine ⟨yiq, hyiq, fun i hi => ?_⟩
    rw [State.finish_out, read_decBytes _ _ _ _ _ _ _ _ _ hx hy hi, pixelOut, hyiq]

theorem pixelBytes_red {p : Vec3 (Option Byte)} {b : Byte} (h : p.x = some b) (d k : Nat) :
    (pixelBytes d k p)[0]? = some b := by simp [pixelBytes, h]

theorem pixelBytes_green {p : Vec3 (Option Byte)} {b : Byte} (h : p.y = some b) (d k : Nat) :
    (pixelBytes d k p)[1]? = some b := by simp [pixelBytes, h]

theorem pixelBytes_blue {p : Vec3 (Option Byte)} {b : Byte} (h : p.z = some b) (d k : Nat) :
    (pixelBytes d k p)[2]? = some b := by simp [pixelBytes, h]

theorem pixelBytes_alpha (d k : Nat) (p : Vec3 (Option Byte)) : (pixelBytes d k p)[3]? = some 255 := rfl

/-- Settles O42. -/
theorem decRgbWritesPixels : Obligations.DecRgbWritesPixels := by
  unfold Obligations.DecRgbWritesPixels
  intro s me hd hw hacc
  obtain ⟨t, ht, hdone, hfaults, hpixel⟩ := decOf_written .rgb hd hw hacc
  refine ⟨t, ht, hdone, hfaults, fun x hx y hy => ?_⟩
  obtain ⟨yiq, hyiq, hread⟩ := hpixel x hx y hy
  refine ⟨yiq, hyiq, fun b hb => ?_, fun b hb => ?_, fun b hb => ?_, hread 3 (by decide)⟩
  · exact (hread 0 (by decide)).trans (pixelBytes_red hb _ _)
  · exact (hread 1 (by decide)).trans (pixelBytes_green hb _ _)
  · exact (hread 2 (by decide)).trans (pixelBytes_blue hb _ _)

/-- The Luma mode puts the byte of the raw Y in every channel (42_decoder.md R172). -/
theorem pixelBytes_luma {c : Config} {t : Vec3 Fl} {b : Byte} (h : clampByte c.floatFmt t.x = some b) (l : Latch)
    (d k : Nat) : pixelBytes d k (modeOut c l .luma t) = [b, b, b, 255] := by
  simp [pixelBytes, modeOut, h]

/-- Settles O43. -/
theorem decLumaWritesPixels : Obligations.DecLumaWritesPixels := by
  unfold Obligations.DecLumaWritesPixels
  intro s me hd hw hacc
  obtain ⟨t, ht, hdone, hfaults, hpixel⟩ := decOf_written .luma hd hw hacc
  refine ⟨t, ht, hdone, hfaults, fun x hx y hy => ?_⟩
  obtain ⟨yiq, hyiq, hread⟩ := hpixel x hx y hy
  refine ⟨yiq, hyiq, fun b hb i hi => ?_, hread 3 (by decide)⟩
  rw [hread i (by omega), pixelBytes_luma hb]
  interval_cases i <;> rfl

/-- Settles O44. -/
theorem decChromaWritesPixels : Obligations.DecChromaWritesPixels := by
  unfold Obligations.DecChromaWritesPixels
  intro s me hd hw hacc
  obtain ⟨t, ht, hdone, hfaults, hpixel⟩ := decOf_written .chroma hd hw hacc
  refine ⟨t, ht, hdone, hfaults, fun x hx y hy => ?_⟩
  obtain ⟨yiq, hyiq, hread⟩ := hpixel x hx y hy
  refine ⟨yiq, hyiq, fun b hb => ?_, fun b hb => ?_, hread 2 (by decide), hread 3 (by decide)⟩
  · exact (hread 0 (by decide)).trans (pixelBytes_red hb _ _)
  · exact (hread 1 (by decide)).trans (pixelBytes_green hb _ _)

/-- Settles O45. -/
theorem alphaIsOpaque : Obligations.AlphaIsOpaque := by
  unfold Obligations.AlphaIsOpaque
  intro s me mo hd hacc
  have ht := exec_decOf_ok mo hacc hd
  exact ⟨_, ht, fun k hk => read_out_of_exec_decOf hd ht hk (by decide)⟩

/-! ### The modes without parameters -/

/-- Outside the Rgb mode no pixel reads the latched parameters (42_decoder.md R172, R173). -/
theorem pixelOut_congr_latch (c : Config) (l l' : Latch) (me : Method) {mo : Mode} (hmo : mo ≠ .rgb) (comp : Memory)
    (w h x y : Nat) : pixelOut c l me mo comp w h x y = pixelOut c l' me mo comp w h x y := by
  cases mo with
  | rgb => exact absurd rfl hmo
  | luma => rfl
  | chroma => rfl

theorem decBytes_congr_latch (c : Config) (l l' : Latch) (me : Method) {mo : Mode} (hmo : mo ≠ .rgb) (comp : Memory)
    (d w h : Nat) : decBytes c l me mo comp d w h = decBytes c l' me mo comp d w h := by
  simp only [decBytes, pixelOut_congr_latch c l l' me hmo]

/-- OUT after a DEC command: the raster's bytes over it, or as it was where the dimensions are illegal. -/
theorem out_of_exec_decOf {s t : State} {me : Method} {mo : Mode} (h : exec (decOf me mo) s = .next t) :
    t.out = if dimsOk s.cfg s.latchedW s.latchedH then
      s.out.overwrite (decBytes s.cfg s.latch me mo s.comp s.draws s.latchedW s.latchedH) else s.out := by
  rw [exec_decOf mo (accSubpixel_of_exec_decOf h)] at h
  rcases runDec_cases s me mo with ⟨hd, hx⟩ | ⟨hd, hx⟩ <;> rw [hx] at h <;> cases h <;> simp [hd]

theorem latch_of_busy {s : State} {l : Latch} (h : s.engine = .busy l) : s.latch = l := by
  rw [State.latch, h]

/-- Settles O46: the two commands take the same dimensions, and their pixels do not read what differs. -/
theorem lumaAndChromaIgnoreParameters : Obligations.LumaAndChromaIgnoreParameters := by
  unfold Obligations.LumaAndChromaIgnoreParameters
  intro s t u l hue sat luma me mo hmo hl ht hu
  have hlatch : s.latch = l := latch_of_busy hl
  have hw : s.latchedW = l.width.toNat := by rw [State.latchedW, hlatch]
  have hh : s.latchedH = l.height.toNat := by rw [State.latchedH, hlatch]
  rw [out_of_exec_decOf ht, out_of_exec_decOf hu, hw, hh, decBytes_congr_latch _ _ _ _ hmo]
  rfl

/-! ### Closed facts of binary32

Each is evaluated. The overflow bound `2 ^ 277` and the fixed point's `2 ^ 512` lie past the default threshold. -/

section

set_option exponentiation.threshold 512

theorem sampleFl_zero : sampleFl binary32 0 = .fin false 0 := by decide

theorem sampleFl_255 : sampleFl binary32 255 = .fin false (2 ^ 149) := by decide

theorem zero_div_eight : fdiv binary32 (.fin false 0) (ofNatFl binary32 8) = .fin false 0 := by decide

/-- No entry of PHASE is an infinity or a NaN, so a zero times one is a zero. -/
theorem isZero_fmul_phase : ∀ (s : Bool) (m : Fin 8),
    isZero (fmul binary32 (.fin s 0) (ofBits binary32 phase[m].1)) = true ∧
      isZero (fmul binary32 (.fin s 0) (ofBits binary32 phase[m].2)) = true := by decide

/-- No weight of FIR30 is an infinity or a NaN. -/
theorem isZero_fmul_fir30 : ∀ a ∈ fir30.map (ofBits binary32), isZero (fmul binary32 (.fin false 0) a) = true := by
  decide

theorem clampByte_zero : clampByte binary32 (.fin false 0) = some 0 := by decide

theorem clampByte_one : clampByte binary32 (.fin false (2 ^ 149)) = some 255 := by decide

theorem clampByte_one_succ : clampByte binary32 (.fin false (2 ^ 149 + 2 ^ 126)) = some 255 := by decide

/-- The Chroma mode's bias alone: 127.5 (42_decoder.md R173). -/
theorem clampByte_chromaBias :
    clampByte binary32 (fadd binary32 (fmul binary32 (.fin false 0) (ofBits binary32 sourceLiterals.chromaGain))
      (ofBits binary32 sourceLiterals.chromaBias)) = some 127 := by decide

/-- Eight samples of 1.0, divided by 8.0. -/
theorem boxSum_white :
    fdiv binary32 (floatSum binary32 (List.range 8) fun _ => .fin false (2 ^ 149)) (ofNatFl binary32 8) =
      .fin false (2 ^ 149) := by decide

/-- Thirty samples of 1.0, weighted by FIR30: the sum of the weights. -/
theorem firSum_white :
    floatSum binary32 (List.range (fir30.map (ofBits binary32)).length)
      (fun k => fmul binary32 (.fin false (2 ^ 149)) ((fir30.map (ofBits binary32)).getD k (.fin false 0))) =
      .fin false (2 ^ 149 + 2 ^ 126) := by decide

theorem sum_fir30 : fir30.foldl (fun a w => fadd binary32 a (ofBits binary32 w)) (.fin false 0) =
    .fin false (2 ^ 149 + 2 ^ 126) := by decide

theorem sum_fir15 : fir15.foldl (fun a w => fadd binary32 a (ofBits binary32 w)) (.fin false 0) =
    .fin false (2 ^ 149 + 2 ^ 126) := by decide

set_option maxRecDepth 2000 in -- an integer `2 ^ trigBits` recurses 512 deep
theorem firFormula_30 : firFormula binary32 30 1 8 = fir30.map (ofBits binary32) := by decide

set_option maxRecDepth 2000 in
theorem firFormula_15 : firFormula binary32 15 1 8 = fir15.map (ofBits binary32) := by decide

end

/-! ### The FIR sets -/

/-- Settles O38. -/
theorem firSetsSumToOne : Obligations.FirSetsSumToOne := by
  unfold Obligations.FirSetsSumToOne
  rintro ws (rfl | rfl)
  · exact ⟨sum_fir30, oneMag_binary32, by decide⟩
  · exact ⟨sum_fir15, oneMag_binary32, by decide⟩

theorem firA_printed {c : Config} (hfmt : c.floatFmt = binary32) (hfir : c.fir = .given fir30 fir15) :
    firA c = fir30.map (ofBits binary32) := by
  rw [firA, hfir, hfmt]

/-- Settles O39. -/
theorem firTablesAreTheFormula : Obligations.FirTablesAreTheFormula := by
  unfold Obligations.FirTablesAreTheFormula
  intro c hfmt hfir
  simp only [firA, firB, hfir, hfmt, firFormula_30, firFormula_15, and_self]

/-! ### The colour adjustment -/

theorem ofBits_zero : ofBits binary32 0 = .fin false 0 := by decide

theorem trigCos_zero {c : Config} {hue : Word} (hfmt : c.floatFmt = binary32) (htrig : c.trig = .nearest)
    (hhue : hue = 0) : trigCos c hue = .fin false (oneMag binary32) := by
  rw [trigCos, htrig, hfmt, hhue, ofBits_zero]
  rfl

theorem trigSin_zero {c : Config} {hue : Word} (hfmt : c.floatFmt = binary32) (htrig : c.trig = .nearest)
    (hhue : hue = 0) : trigSin c hue = .fin false 0 := by
  rw [trigSin, htrig, hfmt, hhue, ofBits_zero]
  rfl

/-- Settles O50. -/
theorem adjustmentIsPrintedMatrix : Obligations.AdjustmentIsPrintedMatrix := by
  unfold Obligations.AdjustmentIsPrintedMatrix
  intro c l y i q
  exact ⟨rfl, fun hfmt htrig hhue => ⟨trigCos_zero hfmt htrig hhue, trigSin_zero hfmt htrig hhue⟩⟩

/-! ### The all-zero row -/

/-- A chain of steps that each leave where it starts ends there. -/
theorem foldlM_fixed {α β : Type} {f : β → α → Option β} {l : List α} {b : β} (h : ∀ a ∈ l, f b a = some b) :
    l.foldlM f b = some b := by
  induction l with
  | nil => rfl
  | cons a l ih =>
    obtain ⟨ha, hl⟩ := List.forall_mem_cons.1 h
    rw [List.foldlM_cons, ha]
    exact ih hl

/-- 0.0 plus a zero of either sign is 0.0. -/
theorem fadd_zero_of_isZero (f : FloatFmt) {v : Fl} (h : isZero v = true) :
    fadd f (.fin false 0) v = .fin false 0 := by
  obtain ⟨s, rfl⟩ := isZero_iff.1 h
  cases s <;> rfl

/-- Accumulating a zero of either sign from the start stays there. -/
theorem accumulate_zero {c : Config} (hfmt : c.floatFmt = binary32) (hphase : c.phase = phase) {v : Fl}
    (hv : isZero v = true) (m : Fin 8) : accumulate c zeroYiq v m = zeroYiq := by
  obtain ⟨s, rfl⟩ := isZero_iff.1 hv
  obtain ⟨hcos, hsin⟩ := isZero_fmul_phase s m
  simp only [accumulate, zeroYiq, hfmt, hphase, fadd_zero_of_isZero _ hv, fadd_zero_of_isZero _ hcos,
    fadd_zero_of_isZero _ hsin]

/-- Where every sample is 0, both methods give exactly 0.0 three times (42_decoder.md R183). -/
theorem rawYiq_zero {c : Config} {comp : Memory} {w h x y : Nat} (hfmt : c.floatFmt = binary32)
    (hphase : c.phase = phase) (hfir : c.fir = .given fir30 fir15) (hlit : c.lit = sourceLiterals)
    (hzero : ∀ col : Int, sampleAt c.floatFmt comp w h col y = some (.fin false 0)) (me : Method) :
    rawYiq c me comp w h x y = some zeroYiq := by
  cases me with
  | fast =>
    have hfold : (List.range c.lit.fastN).foldlM (fastTap c comp w h x y) zeroYiq = some zeroYiq :=
      foldlM_fixed fun j _ => by rw [fastTap, hzero, Option.map_some, accumulate_zero hfmt hphase rfl]
    have hn : c.lit.fastN = 8 := by rw [hlit]; rfl
    rw [rawYiq, fastYiq, hfold, hn, hfmt]
    simp [zeroYiq, zero_div_eight]
  | accurate =>
    refine foldlM_fixed fun tap htap => ?_
    have hweight : tap.1 ∈ fir30.map (ofBits binary32) :=
      firA_printed hfmt hfir ▸ List.fst_mem_of_mem_zipIdx htap
    rw [accTap, hzero, Option.map_some, hfmt, accumulate_zero hfmt hphase (isZero_fmul_fir30 _ hweight)]

/-- Settles O48. -/
theorem zeroRowDecodesToBlack : Obligations.ZeroRowDecodesToBlack := by
  unfold Obligations.ZeroRowDecodesToBlack
  intro c l comp w h x y me hfmt hphase hfir hlit hchroma hw hy hrow
  have hzero : ∀ col : Int, sampleAt c.floatFmt comp w h col y = some (.fin false 0) := fun col => by
    rw [sampleAt_row _ _ _ hy, hrow _ (clampTo_lt (by omega) col), hfmt, Option.map_some, sampleFl_zero]
  have hraw : rawYiq c me comp w h x y = some zeroYiq := rawYiq_zero hfmt hphase hfir hlit hzero me
  have hgrey : chromaByte c (.fin false 0) = some 127 := by
    rw [chromaByte, hchroma, hfmt, hlit]
    exact clampByte_chromaBias
  refine ⟨hraw, ?_, ?_⟩
  · simp only [pixelOut, hraw, modeOut, zeroYiq, hfmt, clampByte_zero]
  · simp only [pixelOut, hraw, modeOut, zeroYiq, hgrey]

/-! ### The all-white raster -/

/-- The raw Y of a white raster is 1.0 by the fast method and 1 + 2^-23 by the accurate one (42_decoder.md R163). -/
theorem rawYiq_white {c : Config} {comp : Memory} {w h x y : Nat} (hfmt : c.floatFmt = binary32)
    (hfir : c.fir = .given fir30 fir15) (hlit : c.lit = sourceLiterals)
    (hwhite : ∀ col : Int, sampleAt c.floatFmt comp w h col y = some (.fin false (2 ^ 149))) (me : Method) :
    ∃ yiq, rawYiq c me comp w h x y = some yiq ∧
      (yiq.x = .fin false (2 ^ 149) ∨ yiq.x = .fin false (2 ^ 149 + 2 ^ 126)) := by
  cases me with
  | fast =>
    have hn : c.lit.fastN = 8 := by rw [hlit]; rfl
    rw [rawYiq, fastYiq, hn, foldlM_fastTap_of_samples (v := fun _ => .fin false (2 ^ 149)) fun j _ => hwhite _]
    refine ⟨_, rfl, .inl ?_⟩
    rw [phaseSums_x, hfmt, boxSum_white]
  | accurate =>
    refine ⟨_, accYiq_of_samples (v := fun _ => .fin false (2 ^ 149)) fun k _ => hwhite _, .inr ?_⟩
    rw [phaseSums_x, hfmt, firA_printed hfmt hfir, firSum_white]

/-- Settles O49. -/
theorem whiteRasterDecodesWhite : Obligations.WhiteRasterDecodesWhite := by
  unfold Obligations.WhiteRasterDecodesWhite
  intro s me hd hacc hfmt hphase hfir hlit hcomp
  have ht := exec_decOf_ok .luma hacc hd
  refine ⟨_, ht, fun o ho => ?_⟩
  have hk : o / 4 < s.latchedW * s.latchedH := by rw [Nat.mul_assoc] at ho; omega
  have hcol : colOf s.latchedW (o / 4) < s.latchedW := Nat.mod_lt _ (Nat.pos_of_lt_mul_right hk)
  have hrow : rowOf s.latchedW (o / 4) < s.latchedH := Nat.div_lt_of_lt_mul hk
  have hwhite : ∀ col : Int, sampleAt s.cfg.floatFmt s.comp s.latchedW s.latchedH col (rowOf s.latchedW (o / 4)) =
      some (.fin false (2 ^ 149)) := fun col => by
    have hlt := cellAt_lt (clampTo_lt (n := 2 * s.latchedW) (by omega) col) hrow
    rw [sampleAt_row _ _ _ hrow, ← cellAt, hcomp _ hlt, hfmt, Option.map_some, sampleFl_255]
  obtain ⟨yiq, hyiq, hx⟩ := rawYiq_white (x := colOf s.latchedW (o / 4)) hfmt hfir hlit hwhite me
  have hbyte : clampByte s.cfg.floatFmt yiq.x = some 255 := by
    rcases hx with hx | hx <;> rw [hfmt, hx]
    · exact clampByte_one
    · exact clampByte_one_succ
  have hread := read_out_of_exec_decOf hd ht hk (Nat.mod_lt o four_pos)
  rw [Nat.div_add_mod, pixelOut, hyiq, pixelBytes_luma hbyte] at hread
  rw [hread]
  have hlt : o % 4 < 4 := Nat.mod_lt o four_pos
  interval_cases o % 4 <;> rfl

end Sys2Proof.Machine

/-! SUPPORT. The control command NOP (43_control.md): it is the normal end of a command and nothing more. -/

namespace Sys2Proof.Machine

/-- NOP checks nothing and writes nothing, so in every state it ends normally (43_control.md R220). -/
theorem exec_nop (s : State) : exec .nop s = .next s.complete := rfl

/-- Settles O19. -/
theorem nopCompletes : Obligations.NopCompletes := by
  unfold Obligations.NopCompletes
  intro s
  rw [exec_nop, State.complete, Status.completed]

end Sys2Proof.Machine

/-! SUPPORT. The errors and the model faults (60_exceptions.md): the states an error leaves, HAZ and refused accesses,
and where the raster commands record F_UNINIT. -/

namespace Sys2Proof.Machine

/-! ### The three errors -/

theorem fetched_of_illegal {s : State} {l : Latch} {e : Illegal} (he : s.engine = .busy l)
    (hd : decode l.word = .error e) : s.fetched = .illegal e := by
  rw [State.fetched_of_busy he, hd]

/-- The engine's move where the latched word is no command (60_exceptions.md R233). -/
theorem step_of_illegal {s : State} {l : Latch} {e : Illegal} (he : s.engine = .busy l)
    (hd : decode l.word = .error e) (hn : s.nextAgent = .engine) : step s = .next (s.popTurn.raiseErr .illegal) := by
  have hf : s.popTurn.fetched = .illegal e := fetched_of_illegal (s := s.popTurn) he hd
  rw [step_engine hn, engineStep, hf]

/-- Settles O4. -/
theorem illegalWordEndsWithErrIllegal : Obligations.IllegalWordEndsWithErrIllegal := by
  unfold Obligations.IllegalWordEndsWithErrIllegal
  intro s l e he hd hn
  rw [step_of_illegal he hd hn, State.raiseErr, Status.errored]
  rfl

theorem execQuant_of_not_dimsLegal {s : State} (hd : ¬ s.DimsLegal) : execQuant s = .next (s.raiseErr .dim) := by
  rw [execQuant, withDims_bad (dims_false hd)]

theorem runEnc_of_not_dimsLegal {s : State} (at_ : Nat → Nat → Nat → Nat → Option Byte) (hd : ¬ s.DimsLegal) :
    runEnc s at_ = .next (s.raiseErr .dim) := by
  rw [runEnc, withDims_bad (dims_false hd)]

theorem runDec_of_not_dimsLegal {s : State} (me : Method) (mo : Mode) (hd : ¬ s.DimsLegal) :
    runDec s me mo = .next (s.raiseErr .dim) := by
  rw [runDec, withDims_bad (dims_false hd)]

/-- Settles O21: every raster command checks the dimensions first, an accurate DEC where it is not refused. -/
theorem illegalDimsEndWithErrDim : Obligations.IllegalDimsEndWithErrDim := by
  unfold Obligations.IllegalDimsEndWithErrDim
  intro s i hnop hsrst hacc hd
  change exec i s = .next (s.raiseErr .dim)
  cases i with
  | nop => exact absurd rfl hnop
  | srst => exact absurd rfl hsrst
  | quant => exact execQuant_of_not_dimsLegal hd
  | encI | encF => exact runEnc_of_not_dimsLegal _ hd
  | decFastRgb | decFastLuma | decFastChroma => exact runDec_of_not_dimsLegal _ _ hd
  | decAccRgb => exact exec_of_not_dimsLegal hnop hsrst (hacc .rgb rfl) hd
  | decAccLuma => exact exec_of_not_dimsLegal hnop hsrst (hacc .luma rfl) hd
  | decAccChroma => exact exec_of_not_dimsLegal hnop hsrst (hacc .chroma rfl) hd

/-- Settles O22. -/
theorem indexAbove15EndsWithErrIndex : Obligations.IndexAbove15EndsWithErrIndex := by
  unfold Obligations.IndexAbove15EndsWithErrIndex
  intro s i k b hi hd hk hread h15
  have hbad : indexBad s.idx (s.latchedW * s.latchedH) = true := (indexBad_iff _ _).2 ⟨k, hk, b, hread, h15⟩
  rcases hi with rfl | rfl
  · exact runEnc_of_indexBad (encIAt s.cfg s.idx) hd hbad
  · exact runEnc_of_indexBad (encFAt s.cfg s.idx) hd hbad

/-! ### HAZ and refused accesses -/

/-- HAZ is not cleared, and only a busy engine that goes on has it set (60_exceptions.md R238). -/
theorem ControlMove.haz {s t : State} (h : ControlMove s t) :
    t.status.haz = s.status.haz ∨ (s.busy = true ∧ t.engine = s.engine ∧ t.status = s.status.hazarded) := by
  rcases h with ⟨hen, hst | ⟨hb, hst⟩⟩ | ⟨-, hst, -⟩ | ⟨-, -, hst | hst | ⟨e, hst⟩⟩
  · exact .inl (by rw [hst])
  · exact .inr ⟨hb, hen, hst⟩
  all_goals exact .inl (by simp [hst])

/-- Settles O14. -/
theorem hazIsStickyAndHarmless : Obligations.HazIsStickyAndHarmless := by
  unfold Obligations.HazIsStickyAndHarmless
  intro s t h
  rcases (step_controlMove h).haz with hkept | ⟨hb, hen, hst⟩
  · exact ⟨hkept.trans, fun hclear hset => by simp [hkept, hclear] at hset⟩
  · exact ⟨fun _ => by simp [hst], fun _ _ => ⟨hb, hen, by simp [hst]⟩⟩

theorem access_of_no_target {s : State} {addr : Word} {n : Nat} (go : Target → State)
    (h : ¬ ∃ tg, target s.cfg addr n = .ok tg) : ∃ r, access s addr n go = .refused r := by
  rcases access_cases s addr n go with ⟨tg, ht, -⟩ | ⟨r, -, hr⟩
  · exact absurd ⟨tg, ht⟩ h
  · exact ⟨r, hr⟩

/-- An operation that has no step is refused, whatever the engine does (70_reset_and_hazards.md R266). -/
theorem hostStep_of_no_step {s : State} {op : HostOp} {rest : List HostOp} (hp : s.pending = op :: rest)
    (hop : ¬ opHasStep s.cfg op) : ∃ r, hostStep s = .refused r := by
  rw [hostStep, hp]
  cases op with
  | read addr n => exact access_of_no_target _ hop
  | write addr n v => exact access_of_no_target _ hop
  | poll => exact absurd trivial hop

/-- Settles O57. -/
theorem refusedAccessHasNoStep : Obligations.RefusedAccessHasNoStep := by
  unfold Obligations.RefusedAccessHasNoStep
  intro s op rest hn hp hop
  rw [step_host hn]
  exact hostStep_of_no_step (s := s.popTurn) hp hop

/-! ### What a step does to the fault set -/

theorem hostRead_faults (s : State) (addr : Word) (n : Nat) (tg : Target) :
    (hostRead s addr n tg).faults = s.faults := by
  unfold hostRead readBusy readIdle
  split <;> split <;> simp

theorem hostWrite_faults (s : State) (n : Nat) (v : Word) (tg : Target) :
    (hostWrite s n v tg).faults = s.faults := by
  unfold hostWrite writeIdle
  split
  · simp
  · split <;> simp

theorem pollStep_faults (s : State) : (pollStep s).faults = s.faults := by unfold pollStep; split <;> simp

/-- The host's moves record no model fault: F_UNINIT is a command's (60_exceptions.md R240). -/
theorem hostStep_faults {s t : State} (h : hostStep s = .next t) : t.faults = s.faults := by
  rcases hostStep_next h with ⟨-, rfl⟩ | ⟨_, _, _, _, -, -, rfl⟩ | ⟨_, _, _, _, _, -, -, rfl⟩ | ⟨_, -, rfl⟩
  · rfl
  · simp [hostRead_faults]
  · simp [hostWrite_faults]
  · exact pollStep_faults s

theorem exec_faults_subset {i : Instr} {s t : State} (h : exec i s = .next t) : s.faults ⊆ t.faults := by
  rcases exec_next h with ⟨-, rfl⟩ | ⟨-, rfl⟩ | ⟨-, -, ⟨e, rfl⟩ | ⟨d, bytes, u, -, -, rfl⟩⟩
  · simp
  · simp
  · simp
  · exact fun f hf => (State.mem_finish_faults s d bytes u f).2 (.inr hf)

theorem engineStep_faults_subset {s t : State} (h : engineStep s = .next t) : s.faults ⊆ t.faults := by
  rcases engineStep_next h with ⟨-, rfl⟩ | ⟨_, _, -, -, rfl⟩ | ⟨_, i, -, -, hx⟩
  · exact List.Subset.refl _
  · simp
  · exact exec_faults_subset hx

/-- Settles O13: the host leaves the fault set as it is, and the engine only adds to it. -/
theorem faultSetNeverShrinks : Obligations.FaultSetNeverShrinks := by
  unfold Obligations.FaultSetNeverShrinks
  intro s t f h hf
  rcases step_cases h with ⟨-, hm⟩ | ⟨-, hm⟩
  · rw [hostStep_faults hm]
    exact hf
  · exact engineStep_faults_subset hm hf

/-! ### Where QUANT and the encoder record F_UNINIT -/

/-- Completing a raster command records F_UNINIT where it was recorded before or the command met an unwritten byte. -/
theorem uninit_mem_finish_faults (s : State) (d : BufId) (bytes : List Byte) (u : Bool) :
    .uninit ∈ (s.finish d bytes u).faults ↔ .uninit ∈ s.faults ∨ u = true := by
  simp [State.mem_finish_faults, or_comm]

theorem toNat_indexByte_le (i : Fin 16) : (indexByte i).toNat ≤ 15 := by
  rw [indexByte, BitVec.toNat_ofNat]
  omega

/-- A drawn index keeps four bits (log 10). -/
theorem toNat_drawIndex_le (base off : Nat) : (drawIndex base off).toNat ≤ 15 := by
  rw [drawIndex, BitVec.toNat_and]
  exact Nat.and_le_right

/-- Computed or drawn, QUANT's byte for a pixel is an index (40_quantizer.md R104). -/
theorem toNat_quantAt_getD_le (c : Config) (src : Memory) (base k : Nat) :
    ((quantAt c src k).getD (drawIndex base k)).toNat ≤ 15 := by
  rw [quantAt]
  cases srcPixel src k with
  | none => exact toNat_drawIndex_le base k
  | some p => exact toNat_indexByte_le _

/-- Settles O51. -/
theorem quantRecordsUninit : Obligations.QuantRecordsUninit := by
  unfold Obligations.QuantRecordsUninit
  intro s hd
  refine ⟨_, exec_quant_ok hd, finish_rasterDone s .idx _ (length_quantBytes _ _ _ _), ?_, fun k hk => ?_⟩
  · rw [uninit_mem_finish_faults, quantUninit_iff]
  · exact ⟨_, read_idx_of_exec_quant hd (exec_quant_ok hd) hk, toNat_quantAt_getD_le _ _ _ _⟩

theorem indexBad_eq_false_of_le {m : Memory} {n : Nat} (h : ∀ k < n, ∀ b, m.read k = some b → b.toNat ≤ 15) :
    indexBad m n = false := by
  rw [← Bool.not_eq_true, indexBad_iff]
  rintro ⟨k, hk, b, hb, h15⟩
  exact absurd (h k hk b hb) (Nat.not_le.2 h15)

/-- Both ENC commands on legal dimensions with no index above 15 (41_encoder.md R129, R130). -/
theorem runEnc_records_uninit {s : State} (at_ : Nat → Nat → Nat → Nat → Option Byte) (hd : s.DimsLegal)
    (hle : ∀ k < s.latchedW * s.latchedH, ∀ b, s.idx.read k = some b → b.toNat ≤ 15) :
    ∃ t, runEnc s at_ = .next t ∧ t.status.done = true ∧
      (.uninit ∈ t.faults ↔ .uninit ∈ s.faults ∨ ∃ k < s.latchedW * s.latchedH, s.idx.read k = none) := by
  refine ⟨_, runEnc_ok at_ hd (indexBad_eq_false_of_le hle), by simp, ?_⟩
  rw [uninit_mem_finish_faults, indexUninit_iff]

/-- Settles O52. -/
theorem encRecordsUninit : Obligations.EncRecordsUninit := by
  unfold Obligations.EncRecordsUninit
  intro s i hi hd hle
  rcases hi with rfl | rfl
  · exact runEnc_records_uninit (encIAt s.cfg s.idx) hd hle
  · exact runEnc_records_uninit (encFAt s.cfg s.idx) hd hle

/-! ### Where the decoder records F_UNINIT

With the default windows each pixel's window holds the two COMP bytes of its own columns, so every byte of the raster
is read by some pixel. -/

/-- A chain that has a step without a value has none. -/
theorem foldlM_eq_none_of_mem {α β : Type} {f : β → α → Option β} {l : List α} {a : α} (ha : a ∈ l)
    (h : ∀ b, f b a = none) (b : β) : l.foldlM f b = none := by
  induction l generalizing b with
  | nil => cases ha
  | cons a' l ih =>
    rw [List.foldlM_cons]
    rcases List.mem_cons.1 ha with rfl | hl
    · rw [h]; rfl
    · cases f b a' with
      | none => rfl
      | some b' => exact ih hl b'

/-- A sample at a column of the raster has no value where its byte is unwritten. -/
theorem sampleAt_eq_none (f : FloatFmt) {comp : Memory} {w h y col : Nat} {c : Int} (hy : y < h) (hcol : col < 2 * w)
    (hc : c = col) (hread : comp.read (cellAt (2 * w) col y) = none) : sampleAt f comp w h c y = none := by
  rw [sampleAt_row f comp w hy, hc, clampTo_natCast hcol, ← cellAt, hread]
  rfl

/-- Tap 4 of the fast window is the pixel's first column, tap 5 its second (42_decoder.md R167). -/
theorem fastYiq_eq_none {c : Config} {comp : Memory} {w h y col : Nat} (hoff : c.fastOffset = -4)
    (hn : c.lit.fastN = 8) (hy : y < h) (hcol : col < 2 * w) (hread : comp.read (cellAt (2 * w) col y) = none) :
    fastYiq c comp w h (col / 2) y = none := by
  have hmem : 4 + col % 2 ∈ List.range c.lit.fastN := by rw [List.mem_range]; omega
  have htap : ∀ acc, fastTap c comp w h (col / 2) y acc (4 + col % 2) = none := fun acc => by
    simp only [fastTap]
    rw [sampleAt_eq_none _ hy hcol (by omega) hread]
    rfl
  rw [fastYiq, foldlM_eq_none_of_mem hmem htap]
  rfl

/-- Tap 15 of the accurate filter is the pixel's first column, tap 16 its second (42_decoder.md R168). -/
theorem accYiq_eq_none {c : Config} {comp : Memory} {w h y col : Nat} (hoff : c.accOffset = -15)
    (hstride : c.accStride = 1) (hlen : (firA c).length = 30) (hy : y < h) (hcol : col < 2 * w)
    (hread : comp.read (cellAt (2 * w) col y) = none) : accYiq c comp w h (col / 2) y = none := by
  have hmem : 15 + col % 2 ∈ List.range (firA c).length := by rw [List.mem_range]; omega
  rw [accYiq_eq]
  refine foldlM_eq_none_of_mem hmem (fun acc => ?_) zeroYiq
  simp only [accTap]
  rw [sampleAt_eq_none _ hy hcol (by rw [hstride]; omega) hread]
  rfl

theorem decUninit_iff_raw (c : Config) (me : Method) (comp : Memory) (w h : Nat) :
    decUninit c me comp w h = true ↔
      ∃ k < w * h, rawYiq c me comp w h (colOf w k) (rowOf w k) = none := by
  simp [decUninit]

/-- A pixel of the raster without a raw triple makes a DEC command record F_UNINIT. -/
theorem decUninit_of_rawYiq {c : Config} {me : Method} {comp : Memory} {w h x y : Nat} (hx : x < w) (hy : y < h)
    (hraw : rawYiq c me comp w h x y = none) : decUninit c me comp w h = true := by
  refine (decUninit_iff_raw _ _ _ _ _).2 ⟨cellAt w x y, cellAt_lt hx hy, ?_⟩
  rw [colOf_cellAt y hx, rowOf_cellAt y hx, hraw]

/-- Every element of a raster lies in a column and a row of it (00_scope.md R10). -/
theorem exists_cell_of_lt {w h o : Nat} (ho : o < w * h) : ∃ x < w, ∃ y < h, cellAt w x y = o := by
  have hw : 0 < w := Nat.pos_of_ne_zero fun e => by simp [e] at ho
  exact ⟨o % w, Nat.mod_lt o hw, o / w, Nat.div_lt_of_lt_mul ho, Nat.div_add_mod' o w⟩

/-- With the default windows a DEC command reads every COMP byte of the raster (42_decoder.md R167, R168). -/
theorem decUninit_iff {s : State} (me : Method) (hfast : s.cfg.fastOffset = -4) (hn : s.cfg.lit.fastN = 8)
    (hoff : s.cfg.accOffset = -15) (hstride : s.cfg.accStride = 1) (hlen : (firA s.cfg).length = 30) :
    decUninit s.cfg me s.comp s.latchedW s.latchedH = true ↔
      ∃ o < 2 * s.latchedW * s.latchedH, s.comp.read o = none := by
  constructor
  · intro h
    by_contra hall
    push Not at hall
    have hw : s.CompWritten := fun o ho => Option.isSome_iff_ne_none.2 (hall o ho)
    simp [decUninit_of_written me hw] at h
  · rintro ⟨o, ho, hread⟩
    obtain ⟨col, hcol, y, hy, rfl⟩ := exists_cell_of_lt ho
    refine decUninit_of_rawYiq (x := col / 2) (by omega) hy ?_
    cases me with
    | fast => exact fastYiq_eq_none hfast hn hy hcol hread
    | accurate => exact accYiq_eq_none hoff hstride hlen hy hcol hread

/-- Settles O53. -/
theorem decRecordsUninit : Obligations.DecRecordsUninit := by
  unfold Obligations.DecRecordsUninit
  intro s me mo hd hacc hfast hn hoff hstride hlen
  refine ⟨_, exec_decOf_ok mo hacc hd, by simp, ?_⟩
  rw [uninit_mem_finish_faults, decUninit_iff me hfast hn hoff hstride hlen]

end Sys2Proof.Machine

/-! SUPPORT. The busy window (70_reset_and_hazards.md): what the host's accesses leave while a command runs, SRST, and
that the running command ends. -/

namespace Sys2Proof.Machine

/-! ### The host's accesses in the busy window -/

/-- A discarded write changes neither the target nor the latched command (70_reset_and_hazards.md R266, R268). -/
theorem hostWrite_of_busy {s : State} (hb : s.busy = true) (n : Nat) (v : Word) (tg : Target) :
    hostWrite s n v tg = s.setHaz := by
  rw [hostWrite, if_pos hb]

theorem hostRead_status_of_busy {s : State} (hb : s.busy = true) (addr : Word) (n : Nat) :
    hostRead s addr n (.reg .status) = s.reply addr n s.statusWord := by
  rw [hostRead, if_pos hb, readBusy, if_pos rfl]

/-- A read of anything but STATUS sets HAZ and draws its value (70_reset_and_hazards.md R266,
93_implementation_defined.md U5). -/
theorem hostRead_of_busy {s : State} (hb : s.busy = true) (addr : Word) (n : Nat) {tg : Target}
    (ht : tg ≠ .reg .status) :
    hostRead s addr n tg = (s.setHaz.reply addr n (anyWord s.draws n)).drew n := by
  rw [hostRead, if_pos hb, readBusy, if_neg ht]

/-- Settles O58. -/
theorem busyWriteIsDiscarded : Obligations.BusyWriteIsDiscarded := by
  unfold Obligations.BusyWriteIsDiscarded
  intro s addr v n tg rest hb hn hp ht
  have hbusy : s.popTurn.popPending.busy = true := hb
  rw [step_host hn, hostStep_write (s := s.popTurn) hp ht, hostWrite_of_busy hbusy, popTurn_popPending hp]
  rfl

/-- Settles O59: the free value of a read other than STATUS is the word of `n` drawn bytes. -/
theorem busyReads : Obligations.BusyReads := by
  unfold Obligations.BusyReads
  intro s addr n tg rest hb hn hp ht
  have hbusy : s.popTurn.popPending.busy = true := hb
  rw [step_host hn, hostStep_read (s := s.popTurn) hp ht]
  constructor
  · rintro rfl
    rw [hostRead_status_of_busy hbusy, popTurn_popPending hp]
    rfl
  · intro hstatus
    refine ⟨anyWord s.draws n, ?_⟩
    rw [hostRead_of_busy hbusy addr n hstatus, popTurn_popPending hp]
    rfl

/-! ### SRST -/

/-- SRST checks nothing, so in every state it has its whole effect (43_control.md R221). -/
theorem exec_srst (s : State) : exec .srst s = .next s.toIdle.resetRegisters := rfl

/-- Settles O20: the effect is the control command's own; written while BUSY, SRST's word is a write like any other. -/
theorem srstRestoresRegisters : Obligations.SrstRestoresRegisters := by
  unfold Obligations.SrstRestoresRegisters
  refine ⟨fun s => ?_, fun s rest hb hn hp => ?_⟩
  · rw [exec_srst, State.resetRegisters, State.toIdle, Status.cleared]
    rfl
  · exact busyWriteIsDiscarded s _ _ 4 (.reg .cmd) rest hb hn hp (target_regAt _ (by decide) (by decide))

/-! ### A running command ends

Every turn the schedule gives the host leaves the command latched and takes one turn off the schedule; the first turn of
the engine, at the latest the one after the schedule's end, ends the command (70_reset_and_hazards.md R270; log 2). -/

/-- What a host move in the busy window keeps: the command, the configuration and the schedule stay, and the program
gains no operation. -/
def HostWaits (s t : State) : Prop :=
  t.engine = s.engine ∧ t.cfg = s.cfg ∧ t.turns = s.turns ∧ t.pending ⊆ s.pending

theorem popPending_pending_subset (s : State) : s.popPending.pending ⊆ s.pending := List.tail_subset s.pending

theorem hostRead_waits {s : State} (hb : s.busy = true) (addr : Word) (n : Nat) (tg : Target) :
    HostWaits s (hostRead s.popPending addr n tg) := by
  have hbusy : s.popPending.busy = true := hb
  by_cases ht : tg = .reg .status
  · rw [ht, hostRead_status_of_busy hbusy]
    exact ⟨rfl, rfl, rfl, popPending_pending_subset s⟩
  · rw [hostRead_of_busy hbusy addr n ht]
    exact ⟨rfl, rfl, rfl, popPending_pending_subset s⟩

theorem hostWrite_waits {s : State} (hb : s.busy = true) (n : Nat) (v : Word) (tg : Target) :
    HostWaits s (hostWrite s.popPending n v tg) := by
  have hbusy : s.popPending.busy = true := hb
  rw [hostWrite_of_busy hbusy]
  exact ⟨rfl, rfl, rfl, popPending_pending_subset s⟩

/-- The `poll` loop stays in the program while BUSY reads 1 (30_encoding.md R92). -/
theorem pollStep_waits {s : State} (hb : s.busy = true) : HostWaits s (pollStep s) := by
  rw [pollStep, if_pos hb]
  exact ⟨rfl, rfl, rfl, List.Subset.refl _⟩

/-- Where its next operation has a step, the host moves, and a busy engine's command waits. -/
theorem hostStep_waits {s : State} (hb : s.busy = true) (hop : ∀ op ∈ s.pending, opHasStep s.cfg op) :
    ∃ t, hostStep s = .next t ∧ HostWaits s t := by
  match hp : s.pending with
  | [] => exact ⟨s, by rw [hostStep, hp], rfl, rfl, rfl, List.Subset.refl _⟩
  | .read addr n :: rest =>
    obtain ⟨tg, ht⟩ := hop (.read addr n) (by simp [hp])
    exact ⟨_, hostStep_read hp ht, hostRead_waits hb addr n tg⟩
  | .write addr n v :: rest =>
    obtain ⟨tg, ht⟩ := hop (.write addr n v) (by simp [hp])
    exact ⟨_, hostStep_write hp ht, hostWrite_waits hb n v tg⟩
  | .poll :: rest => exact ⟨pollStep s, by rw [hostStep, hp], pollStep_waits hb⟩

/-- Without a sub-pixel shift every command has its step (42_decoder.md R168; log 14). -/
theorem exec_has_next {s : State} (hshift : s.cfg.accSubpixel = 0) (i : Instr) : ∃ t, exec i s = .next t := by
  rcases exec_cases i s with ⟨-, hne⟩ | ⟨e, h⟩ | ⟨d, bytes, u, h⟩ | h | h
  · exact absurd hshift hne
  all_goals exact ⟨_, h⟩

/-- The engine's move ends what is latched: a command by its own step, an illegal word with ERR_ILLEGAL. -/
theorem step_engine_ends {s : State} (hb : s.busy = true) (hshift : s.cfg.accSubpixel = 0)
    (hn : s.nextAgent = .engine) : ∃ t, step s = .next t ∧ t.busy = false := by
  obtain ⟨l, he⟩ := State.busy_eq_true.1 hb
  cases hd : decode l.word with
  | error e => exact ⟨_, step_of_illegal he hd hn, State.busy_eq_false.2 (by simp)⟩
  | ok i =>
    obtain ⟨t, ht⟩ := exec_has_next (s := s.popTurn) hshift i
    exact ⟨t, by rw [step_of_decode he hd hn, ht], State.busy_eq_false.2 (exec_idle ht)⟩

/-- Where the engine moves next, one step ends the command, whatever bound of at least one step is asked. -/
theorem completes_of_engine_turn {s : State} (hb : s.busy = true) (hshift : s.cfg.accSubpixel = 0)
    (hn : s.nextAgent = .engine) (n : Nat) :
    ∃ k t, k ≤ n + 1 ∧ Host.Core.run Sys2Proof.core k s = .next t ∧ t.busy = false := by
  obtain ⟨t, ht, hidle⟩ := step_engine_ends hb hshift hn
  exact ⟨1, t, by omega, run_succ_of_next (M := Sys2Proof.core) 0 ht, hidle⟩

/-- Settles O7, by induction on the schedule. -/
theorem issuedCommandCompletes : Obligations.IssuedCommandCompletes := by
  unfold Obligations.IssuedCommandCompletes
  intro s hb hshift hop
  induction hturns : s.turns generalizing s with
  | nil => exact completes_of_engine_turn hb hshift (by simp [State.nextAgent, hturns, hb]) _
  | cons a turns ih =>
    have hn : s.nextAgent = a := by rw [State.nextAgent, hturns]
    cases a with
    | engine => exact completes_of_engine_turn hb hshift hn _
    | host =>
      obtain ⟨u, hu, hen, hcfg, hut, hpend⟩ := hostStep_waits (s := s.popTurn) hb hop
      have hstep : step s = .next u := by rw [step_host hn, hu]
      have hub : u.busy = true := (State.busy_eq_of_engine_eq hen).trans hb
      have hushift : u.cfg.accSubpixel = 0 := by rw [hcfg]; exact hshift
      have huop : ∀ op ∈ u.pending, opHasStep u.cfg op := fun op h => by
        rw [hcfg]
        exact hop op (hpend h)
      have huturns : u.turns = turns := by simp [hut, hturns]
      obtain ⟨k, t, hk, hrun, hidle⟩ := ih u hub hushift huop huturns
      exact ⟨k + 1, t, Nat.succ_le_succ hk, (run_succ_of_next (M := Sys2Proof.core) k hstep).trans hrun, hidle⟩

end Sys2Proof.Machine
